-- ==== Sys2Proof/Word.lean ====
section
/-! DEFINITION. The widths of the hardware's values: bytes, 32-bit words, 64-bit sums, 40-bit command
words and 256-bit response data (spec/00_scope.md R6, R7). -/

namespace Sys2Proof

/-- One byte of the stream, or of the serialized checksum. -/
abbrev Byte := BitVec 8

/-- One 32-bit little-endian unit, "the minimal input granule" (R10). -/
abbrev Word := BitVec 32

/-- One 64-bit unsigned sum register; arithmetic on it is modulo 2^64 (R21, R92). -/
abbrev Sum := BitVec 64

/-- One command word of the command port (R64: CMD_WIDTH = 40). -/
abbrev CmdWord := BitVec 40

/-- The data of one response (R74: RSP_DATA_WIDTH = 256). -/
abbrev RspData := BitVec 256

end Sys2Proof
end

