-- ==== Sys2Proof/Config.lean ====
section
/-! DEFINITION. What an implementation of FL4-CORE decides for itself: only waiting times
(spec/93_implementation_defined.md I5, spec/70_reset_and_hazards.md R181, R192). Both are free values:
nothing constrains them but that they are finite. -/

namespace Sys2Proof

/-- How many rising edges beyond the first pass between the acceptance of a command and its response
being offered; LATENCY of I5 is this number plus 1. Applied to the counter State.draws, so that every
command may have its own. -/
opaque Config.responseWait : Nat → Nat

/-- How many rising edges pass between the transfer of a response, or the last edge with rst = 1, and
cmd_ready being 1 (R181: "how many cycles that takes is not specified"). -/
opaque Config.readyWait : Nat → Nat

end Sys2Proof
end

