-- ==== Sys2Proof/Machine/Operands.lean ====
section
/-! DEFINITION. Byte order: how bytes become words and how sums become bytes
(spec/20_memory.md R42, R45; spec/41_finalize.md R126, R127, R130). -/

namespace Sys2Proof.Machine

/-- R42: the first byte in stream order is the least significant. -/
def le32 (b0 b1 b2 b3 : Byte) : Word :=
  BitVec.ofNat 32 (b0.toNat + 2 ^ 8 * b1.toNat + 2 ^ 16 * b2.toNat + 2 ^ 24 * b3.toNat)

/-- R45: byte k of le64bytes x is x[8k+7 : 8k]. -/
def le64bytes (x : Sum) : List Byte :=
  (List.range 8).map fun k => x.extractLsb' (8 * k) 8

/-- The number whose base-256 digits are the bytes, the first the least significant (the sum
of B[j] * 2^(8j) in R127). -/
def ofBytesLE : List Byte → Nat
  | [] => 0
  | b :: bs => b.toNat + 2 ^ 8 * ofBytesLE bs

/-- R127: byte j of the list stands in rsp_data[8j+7 : 8j]. -/
def packBytes (bytes : List Byte) : RspData := BitVec.ofNat 256 (ofBytesLE bytes)

/-- R130: the 32 bytes the host reads from a response, rsp_data[7:0] first. -/
def unpackBytes (d : RspData) : List Byte :=
  (List.range 32).map fun j => d.extractLsb' (8 * j) 8

end Sys2Proof.Machine
end

