-- ==== Sys2Proof/Syntax.lean ====
section
/-! DEFINITION. The commands of FL4-CORE: one constructor per row of spec/opcode_table.json
(spec/30_encoding.md R70). Ignored bits are no part of a command (R69), so no constructor holds them. -/

namespace Sys2Proof

/-- A command. Commands are this hardware's instructions (R11). -/
inductive Instr where
  /-- op 000: reserved, answered ILLEGAL (R71, R162). -/
  | reserved0
  /-- op 001: WRITE with its data bytes in stream order (R98); a word carries 1 to 4 of them (R67). -/
  | write (bytes : List Byte)
  /-- op 010: CHECKSUM (R124). -/
  | checksum
  /-- op 011: APPEND (R127). -/
  | append
  /-- op 100: RESET (R140). -/
  | reset
  /-- op 101: CSIZE (R142). -/
  | csize
  /-- op 110: BSIZE (R143). -/
  | bsize
  /-- op 111: reserved, answered ILLEGAL (R71, R162). -/
  | reserved7
  deriving DecidableEq, Repr

end Sys2Proof
end

