-- ==== Sys2Proof/WellFormed.lean ====
section
/-! DEFINITION. Which commands a 40-bit word can carry: a WRITE has 1 to 4 data bytes
(spec/30_encoding.md R67); the other commands have no operand (R66). -/

namespace Sys2Proof

/-- "A count of 0 cannot be encoded" and "No count greater than BEAT_BYTES = 4 can be encoded" (R67). -/
def Instr.wellFormed : Instr → Bool
  | .reserved0 => true
  | .write bytes => decide (1 ≤ bytes.length) && decide (bytes.length ≤ 4)
  | .checksum => true
  | .append => true
  | .reset => true
  | .csize => true
  | .bsize => true
  | .reserved7 => true

end Sys2Proof
end

