-- ==== Sys2Proof/Decode.lean ====
section
/-! DEFINITION. The command word: its fields (spec/30_encoding.md R64 to R68), the decoder, total on every
40-bit word (R72), and after it the encoder, which writes 0 in every ignored bit (R76). -/

namespace Sys2Proof

/-- The op field, bits [2:0] (R64). -/
def opField (w : CmdWord) : BitVec 3 := w.extractLsb' 0 3

/-- The lenm1 field, bits [4:3] (R64). -/
def lenm1Field (w : CmdWord) : BitVec 2 := w.extractLsb' 3 2

/-- The rsvd field, bits [7:5], ignored (R64, R69). -/
def rsvdField (w : CmdWord) : BitVec 3 := w.extractLsb' 5 3

/-- Data lane j, bits [8j+15 : 8j+8] (R65). -/
def lane (w : CmdWord) (j : Nat) : Byte := w.extractLsb' (8 * j + 8) 8

/-- R67: count = zext(lenm1) + 1. -/
def byteCount (w : CmdWord) : Nat := (lenm1Field w).toNat + 1

/-- R68: the bytes of a WRITE are its lanes 0 .. count-1, in that order. -/
def dataBytes (w : CmdWord) : List Byte :=
  [lane w 0, lane w 1, lane w 2, lane w 3].take (byteCount w)

/-- R72: every word is one of the six commands or a reserved one, by op alone. -/
def decode (w : CmdWord) : Instr :=
  match (opField w).toFin with
  | 0 => .reserved0
  | 1 => .write (dataBytes w)
  | 2 => .checksum
  | 3 => .append
  | 4 => .reset
  | 5 => .csize
  | 6 => .bsize
  | 7 => .reserved7

/-- The op of a command (R70). -/
def Instr.op : Instr → BitVec 3
  | .reserved0 => 0b000
  | .write _ => 0b001
  | .checksum => 0b010
  | .append => 0b011
  | .reset => 0b100
  | .csize => 0b101
  | .bsize => 0b110
  | .reserved7 => 0b111

/-- The data field of a WRITE of these bytes, lanes above the count 0 (R76). -/
def dataField (bytes : List Byte) : Word :=
  Machine.le32 (bytes.getD 0 0) (bytes.getD 1 0) (bytes.getD 2 0) (bytes.getD 3 0)

/-- R76: `(le32(b0, …) << 8) | ((c-1) << 3) | 0b001` for a WRITE; op alone for the others. -/
def encode : Instr → CmdWord
  | .write bytes =>
    (dataField bytes).setWidth 40 <<< 8 ||| BitVec.ofNat 40 (bytes.length - 1) <<< 3 ||| 0b001
  | .reserved0 => 0b000
  | .checksum => 0b010
  | .append => 0b011
  | .reset => 0b100
  | .csize => 0b101
  | .bsize => 0b110
  | .reserved7 => 0b111

/-- Why a pattern of bits is no command word: "Every command is one 40-bit word" (R64). -/
inductive DecodeError where
  /-- More than 40 bits. -/
  | tooManyBits (nbits : Nat)
  /-- The number does not fit in the bits it is said to have. -/
  | tooLarge (nbits w : Nat)
  deriving DecidableEq, Repr

/-- The command in the low nbits bits of w, the bits above them 0; whatever is no 40-bit word is
rejected by name. -/
def decodeBits (nbits w : Nat) : Except DecodeError Instr :=
  if 40 < nbits then .error (.tooManyBits nbits)
  else if 2 ^ nbits ≤ w then .error (.tooLarge nbits w)
  else .ok (decode (BitVec.ofNat 40 w))

/-- The decoder on a word numbered as spec/opcode_table.json numbers its bits: bit 0 is bit 0 of
cmd_word. -/
def decodeTableWord (nbits w : Nat) : Option Instr := (decodeBits nbits w).toOption

end Sys2Proof
end

