-- ==== Sys2Proof/Machine/State.lean ====
section
/-! DEFINITION. The state: the block's registers (spec/10_state.md), the transfer in progress on its ports
(spec/30_encoding.md R60 to R63), and the host's command list with the record of the run
(spec/10_state.md R33, spec/70_reset_and_hazards.md R190). -/

namespace Sys2Proof.Machine

/-- The ordered file of four sum registers (R20), and the copies of it that R8 writes (S0, S1, S2, S3). -/
structure Sums where
  s0 : Sum
  s1 : Sum
  s2 : Sum
  s3 : Sum
  deriving DecidableEq, Repr

/-- The whole architectural state of one block: "Nothing else is state" (spec/10_state.md). -/
structure Block where
  /-- s0 .. s3 (R20). -/
  sums : Sums
  /-- pending[0], the earliest byte still waiting when pendingLen > 0 (R22, R24). -/
  pending0 : Byte
  /-- pending[1] (R22). -/
  pending1 : Byte
  /-- pending[2] (R22). -/
  pending2 : Byte
  /-- The count of valid pending bytes, a 2-bit register (R23). -/
  pendingLen : BitVec 2
  deriving DecidableEq, Repr

/-- One response (R73, R74). The status stays a 2-bit value: software reads it whole, and that 10 and 11
are never produced is something to prove. -/
structure Response where
  status : BitVec 2
  data : RspData
  deriving DecidableEq, Repr

/-- The transfer in progress on the ports. -/
inductive Port where
  /-- No command outstanding; cmd_ready = 1 when left = 0, else after that many more edges (R61, R181). -/
  | idle (left : Nat)
  /-- A command accepted and performed, its response not transferred; rsp_valid = 1 when left = 0, else
  after that many more edges (R62, R63). -/
  | outstanding (left : Nat) (response : Response)
  deriving DecidableEq, Repr

/-- One entry of the model's fault record (R163, decision D29). -/
inductive FaultRecord where
  /-- A reserved op was issued as the host's command number index. -/
  | illegalCommand (index : Nat)
  deriving DecidableEq, Repr

/-- One block, its ports, its host and the record of the run. -/
structure State where
  /-- The block's registers. -/
  block : Block
  /-- The transfer in progress. -/
  port : Port
  /-- What is left of the host's command list (R33); its head is the command in hand. -/
  commands : List CmdWord
  /-- The program position: how many commands are completed (R33). -/
  index : Nat
  /-- The responses transferred so far, the first first (R190). -/
  responses : List Response
  /-- The host's own buffer, extended by APPEND (R130). -/
  buffer : List Byte
  /-- The fault record, never cleared (R163). -/
  faults : List FaultRecord
  /-- The model's own counter, to which the free waits of Config are applied. -/
  draws : Nat
  deriving DecidableEq, Repr

/-- Why the machine stops. -/
inductive Fault where
  /-- R161: the block fold was handed `length` bytes, no multiple of 4. Raised by Block.foldBlock alone.
  Safe: the hardware cannot reach it (R102), and no command of the model does. -/
  | contractViolation (length : Nat)
  deriving DecidableEq, Repr

/-- Why an instruction has no meaning here. -/
inductive Refusal where
  /-- An arm of exec not modelled yet; no arm is, so nothing raises it. Safe. -/
  | notModelled (mnemonic : String)
  deriving DecidableEq, Repr

/-- R36: every register of the block at reset. The three pending bytes are the spec's decision D14. -/
def Block.atReset : Block :=
  { sums := { s0 := 0, s1 := 0, s2 := 0, s3 := 0 }, pending0 := 0, pending1 := 0, pending2 := 0,
    pendingLen := 0 }

/-- R184: the reset state, position 0, no fault recorded, no command outstanding. DESIGN CHOICE: no host
list, an empty host buffer, cmd_ready already 1, counter 0 (log entries 2, 7, 8, 11). -/
def State.reset : State :=
  { block := Block.atReset, port := .idle 0, commands := [], index := 0, responses := [], buffer := [],
    faults := [], draws := 0 }

end Sys2Proof.Machine
end

