-- ==== Sys2Proof/Machine/Ops.lean ====
section
/-! DEFINITION. The named operations the meanings share: the fold and the block fold
(spec/40_accumulate.md R90, R102), the pending buffer (spec/10_state.md R24), the response
(spec/30_encoding.md R73), the one error event (spec/60_exceptions.md R162, R163) and the host's taking of a
response (spec/41_finalize.md R130, spec/70_reset_and_hazards.md R189). -/

namespace Sys2Proof.Machine

/-- R90: the cascading adder chain. Each stage adds the NEW value of the stage below (R91). -/
def foldPure (S : Sums) (v : Word) : Sums :=
  let t0 := S.s0 + v.setWidth 64
  let t1 := S.s1 + t0
  let t2 := S.s2 + t1
  let t3 := S.s3 + t2
  { s0 := t0, s1 := t1, s2 := t2, s3 := t3 }

/-- The words of a byte list in order, each 4 bytes read by le32; bytes after the last whole word are left
out. -/
def wordsOf : List Byte → List Word
  | b0 :: b1 :: b2 :: b3 :: rest => le32 b0 b1 b2 b3 :: wordsOf rest
  | _ => []

/-- R90 on one word after another. -/
def foldWords (S : Sums) (vs : List Word) : Sums := vs.foldl foldPure S

/-- R102: the internal fixed-block fold, which faults on a partial block (R161). -/
def Block.foldBlock (bytes : List Byte) (b : Block) : Except Fault Block :=
  if bytes.length % 4 = 0 then .ok { b with sums := foldWords b.sums (wordsOf bytes) }
  else .error (.contractViolation bytes.length)

/-- The three registers of the byte buffer in order (R22). -/
def Block.pendingBytes (b : Block) : List Byte := [b.pending0, b.pending1, b.pending2]

/-- R24: the valid bytes are pending[0 .. pendingLen-1]. -/
def Block.validPending (b : Block) : List Byte := b.pendingBytes.take b.pendingLen.toNat

/-- The end of R95: `for j in 0 .. |P|-1: pending[j] <- P[j]; pendingLen <- |P|`. A register that gets no
byte keeps what it held (R25, R97). -/
def Block.storePending (P : List Byte) (b : Block) : Block :=
  { b with
    pending0 := P.getD 0 b.pending0
    pending1 := P.getD 1 b.pending1
    pending2 := P.getD 2 b.pending2
    pendingLen := BitVec.ofNat 2 P.length }

/-- rsp_status 00, OK (R73). -/
def statusOk : BitVec 2 := 0b00

/-- rsp_status 01, ILLEGAL (R73). -/
def statusIllegal : BitVec 2 := 0b01

/-- CHECKSUM_SIZE, the bytes in the serialized checksum (R31); kept apart from BLOCK_SIZE (R144). -/
def checksumSize : Nat := 32

/-- BLOCK_SIZE, the fold unit (R31); kept apart from CHECKSUM_SIZE (R144). -/
def blockSize : Nat := 4

/-- `respond(status, data)` of R8 and R73: the command's response stands on the response port. -/
def State.respond (status : BitVec 2) (data : RspData) (s : State) : State :=
  { s with port := .outstanding 0 { status := status, data := data } }

/-- The one error event of the hardware (R162), with the model's record of it (R163, D29): a response ILLEGAL
with zero data, the command's index recorded, and nothing else. No trap is taken and there is no
return from one (R166, R167). -/
def State.answerIllegal (s : State) : State :=
  { s.respond statusIllegal 0 with faults := s.faults ++ [.illegalCommand s.index] }

/-- What the host appends to its buffer when it takes response r to command word w (R130). -/
def appendedBytes (w : Option CmdWord) (r : Response) : List Byte :=
  if w.map decode = some .append ∧ r.status = statusOk then unpackBytes r.data else []

/-- The host takes an outstanding response (R63, R189): the response is recorded (R190), an APPEND's bytes
go to the host's buffer (R130), and the position advances by exactly 1 (R33). At the command level the
host then waits until the block is ready again, which is untimed (R192). -/
def State.takeResponse (s : State) : State :=
  match s.port with
  | .idle _ => s
  | .outstanding _ r =>
    { s with
      port := .idle 0
      commands := s.commands.tail
      index := s.index + 1
      responses := s.responses ++ [r]
      buffer := s.buffer ++ appendedBytes s.commands.head? r
      draws := s.draws + 1 }

/-- The command word the host offers next (R33). -/
def State.nextCommand (s : State) : Option CmdWord := s.commands.head?

/-- The host's list with w as its next command, and a block that can accept it. -/
def State.offer (w : CmdWord) (s : State) : State :=
  { s with commands := w :: s.commands.tail, port := .idle 0 }

/-- A run's start (R184): the reset state with the host's command list at position 0. -/
def State.boot (commands : List CmdWord) : State := { State.reset with commands := commands }

end Sys2Proof.Machine
end

