-- ==== Sys2Proof/Machine/Accumulate.lean ====
section
/-! DEFINITION. WRITE (spec/40_accumulate.md R95 to R100): the source's Write algorithm step by step, the
command's meaning, and beside it the assembly datapath of R97. -/

namespace Sys2Proof.Machine

/-- Step 1 of R95: top up the pending bytes from the input up to 4; a completed word is folded and the
pending bytes cleared. It answers the block, the bytes still pending and the input still to process. -/
def Block.topUp (bytes : List Byte) (b : Block) : Except Fault (Block × List Byte × List Byte) :=
  let P := b.validPending
  if P.length = 0 then .ok (b, P, bytes)
  else
    let k := min (4 - P.length) bytes.length
    let P' := P ++ bytes.take k
    if P'.length = 4 then
      match b.foldBlock P' with
      | .ok b' => .ok (b', [], bytes.drop k)
      | .error f => .error f
    else .ok (b, P', bytes.drop k)

/-- R95, `Write(b)`: step 1, then step 2 folds the whole words of the remaining input, then step 3
appends the leftover to the bytes still pending (90_conflicts.md C4). -/
def Block.write (bytes : List Byte) (b : Block) : Except Fault Block :=
  match b.topUp bytes with
  | .error f => .error f
  | .ok (b1, P, rest) =>
    let whole := 4 * (rest.length / 4)
    match b1.foldBlock (rest.take whole) with
    | .error f => .error f
    | .ok b2 => .ok (b2.storePending (P ++ rest.drop whole))

/-- R98: WRITE appends its bytes to the stream and answers the count consumed, which is all of them
(R100). -/
def execWrite (bytes : List Byte) (s : State) : Host.Outcome State Fault Refusal :=
  match s.block.write bytes with
  | .ok b => .next ({ s with block := b }.respond statusOk (BitVec.ofNat 256 bytes.length))
  | .error f => .fault f

/-- T[j] of R97, the 7-byte assembly vector: the valid pending bytes, then the beat. -/
def Block.assembly (bytes : List Byte) (b : Block) (j : Nat) : Byte :=
  if j < b.pendingLen.toNat then b.pendingBytes.getD j 0 else bytes.getD (j - b.pendingLen.toNat) 0

/-- R97: the datapath for a beat of 1 to 4 bytes, which folds at most one word. -/
def Block.writeDatapath (bytes : List Byte) (b : Block) : Block :=
  let p := b.pendingLen.toNat
  let t := p + bytes.length
  let T := b.assembly bytes
  if 4 ≤ t then
    { sums := foldPure b.sums (le32 (T 0) (T 1) (T 2) (T 3))
      pending0 := if 0 < t - 4 then T 4 else b.pending0
      pending1 := if 1 < t - 4 then T 5 else b.pending1
      pending2 := if 2 < t - 4 then T 6 else b.pending2
      pendingLen := BitVec.ofNat 2 (t - 4) }
  else
    { sums := b.sums
      pending0 := if p ≤ 0 ∧ 0 < t then T 0 else b.pending0
      pending1 := if p ≤ 1 ∧ 1 < t then T 1 else b.pending1
      pending2 := if p ≤ 2 ∧ 2 < t then T 2 else b.pending2
      pendingLen := BitVec.ofNat 2 t }

end Sys2Proof.Machine
end

