-- ==== Sys2Proof/Machine/Control.lean ====
section
/-! DEFINITION. RESET, CSIZE and BSIZE (spec/42_control.md R140 to R144). -/

namespace Sys2Proof.Machine

/-- The three reset events put every register into the reset state (R180); this is that state written
over the block's. Pending bytes are discarded, not folded (R140). -/
def State.resetBlock (s : State) : State := { s with block := Block.atReset }

/-- R140. -/
def execReset (s : State) : Host.Outcome State Fault Refusal :=
  .next (s.resetBlock.respond statusOk 0)

/-- R142. -/
def execCsize (s : State) : Host.Outcome State Fault Refusal :=
  .next (s.respond statusOk (BitVec.ofNat 256 checksumSize))

/-- R143. -/
def execBsize (s : State) : Host.Outcome State Fault Refusal :=
  .next (s.respond statusOk (BitVec.ofNat 256 blockSize))

end Sys2Proof.Machine
end

