-- ==== Sys2Proof/Machine/Finalize.lean ====
section
/-! DEFINITION. The checksum reads: finalize, CHECKSUM and APPEND (spec/41_finalize.md R120 to R129). Neither
writes the block (R123). -/

namespace Sys2Proof.Machine

/-- R120, R121: byte j of the padded word is pending[j] below pendingLen and 0x00 from there on, whatever
the register holds. -/
def Block.padByte (b : Block) (j : Nat) : Byte :=
  if j < b.pendingLen.toNat then b.pendingBytes.getD j 0 else 0x00

/-- The padded word of R120. -/
def Block.paddedWord (b : Block) : Word :=
  le32 (b.padByte 0) (b.padByte 1) (b.padByte 2) (b.padByte 3)

/-- R120: the checksum the block reports, computed on a copy; aligned folds nothing (R122). -/
def Block.finalize (b : Block) : Sums :=
  if b.pendingLen = 0 then b.sums else foldPure b.sums b.paddedWord

/-- The response data of CHECKSUM: `F0 | F1 << 64 | F2 << 128 | F3 << 192` (R124, R74). -/
def checksumData (F : Sums) : RspData :=
  F.s0.setWidth 256 ||| F.s1.setWidth 256 <<< 64 ||| F.s2.setWidth 256 <<< 128
    ||| F.s3.setWidth 256 <<< 192

/-- `ser` of R45: the four words in the order s0 .. s3, each little-endian. -/
def serialize (F : Sums) : List Byte :=
  le64bytes F.s0 ++ le64bytes F.s1 ++ le64bytes F.s2 ++ le64bytes F.s3

/-- R124. -/
def execChecksum (s : State) : Host.Outcome State Fault Refusal :=
  .next (s.respond statusOk (checksumData s.block.finalize))

/-- R127: the 32 serialized bytes, byte j in rsp_data[8j+7:8j]. The host's buffer is no operand; the host
appends when it takes the response (R130, State.takeResponse). -/
def execAppend (s : State) : Host.Outcome State Fault Refusal :=
  .next (s.respond statusOk (packBytes (serialize s.block.finalize)))

end Sys2Proof.Machine
end

