-- ==== Sys2Proof/Machine/Illegal.lean ====
section
/-! DEFINITION. The two reserved ops (spec/30_encoding.md R71, spec/60_exceptions.md R162): accepted, answered
ILLEGAL, and recorded by the model (R163). The hardware goes on, so each is a next state. -/

namespace Sys2Proof.Machine

/-- op 000 (R162). -/
def execReserved0 (s : State) : Host.Outcome State Fault Refusal := .next s.answerIllegal

/-- op 111 (R162). -/
def execReserved7 (s : State) : Host.Outcome State Fault Refusal := .next s.answerIllegal

end Sys2Proof.Machine
end

