-- ==== Sys2Proof/Machine/Dispatch.lean ====
section
/-! DEFINITION. The meaning of each command: one arm per constructor of Instr (spec/70_reset_and_hazards.md
R191). -/

namespace Sys2Proof.Machine

def exec (i : Instr) (s : State) : Host.Outcome State Fault Refusal :=
  match i with
  | .reserved0 => Sys2Proof.Machine.execReserved0 s
  | .write bytes => Sys2Proof.Machine.execWrite bytes s
  | .checksum => Sys2Proof.Machine.execChecksum s
  | .append => Sys2Proof.Machine.execAppend s
  | .reset => Sys2Proof.Machine.execReset s
  | .csize => Sys2Proof.Machine.execCsize s
  | .bsize => Sys2Proof.Machine.execBsize s
  | .reserved7 => Sys2Proof.Machine.execReserved7 s

end Sys2Proof.Machine
end

