-- ==== Sys2Proof/Machine/Ports.lean ====
section
/-! DEFINITION. The ports, one rising edge of clk at a time (spec/30_encoding.md R60 to R63,
spec/70_reset_and_hazards.md R180 to R182). The host's inputs at an edge are an argument, so every host is
covered; how many edges the block takes is a free value (R192). After them one whole command (R191). -/

namespace Sys2Proof.Machine

/-- The block's inputs at one rising edge (R60). -/
structure PortIn where
  rst : Bool
  cmdValid : Bool
  cmdWord : CmdWord
  rspReady : Bool
  deriving DecidableEq, Repr

/-- cmd_ready (R61, R62); 0 while rst = 1 (R181). -/
def State.cmdReady (rst : Bool) (s : State) : Bool :=
  match s.port with
  | .idle left => !rst && decide (left = 0)
  | .outstanding _ _ => false

/-- rsp_valid with rsp_status and rsp_data: none is rsp_valid = 0, where the other two mean nothing (R63);
0 while rst = 1 (R181). -/
def State.rspOffered (rst : Bool) (s : State) : Option Response :=
  match s.port with
  | .idle _ => none
  | .outstanding left r => if rst = false ∧ left = 0 then some r else none

/-- After acceptance the response is offered a free number of edges later (R63, R192). -/
def State.delayResponse (s : State) : State :=
  match s.port with
  | .idle _ => s
  | .outstanding _ r =>
    { s with port := .outstanding (Config.responseWait s.draws) r, draws := s.draws + 1 }

/-- The block accepts command word w (R61) and performs it (R191); its response is outstanding. DESIGN CHOICE (log
entry 23): the state change is made at the accepting edge itself, where R63 only says that it is complete by
the first edge at which the response is valid. -/
def State.accept (w : CmdWord) (s : State) : Host.Outcome State Fault Refusal :=
  match exec (decode w) s with
  | .next t => .next t.delayResponse
  | .fault f => .fault f
  | .refused r => .refused r

/-- No command outstanding; cmd_ready rises a free number of edges later. -/
def State.awaitReady (s : State) : State :=
  { s with port := .idle (Config.readyWait s.draws), draws := s.draws + 1 }

/-- An edge with rst = 1: the reset state, an outstanding command abandoned without a response (R180, R182).
The host's own data is not the block's to change (R189). -/
def State.rstEdge (s : State) : State := s.resetBlock.awaitReady

/-- One rising edge of clk. rst wins over everything else (R165); a command is accepted when valid and
ready (R61); a response is transferred when valid and ready (R63); else the block waits. DESIGN CHOICE (log
entry 24): a transfer here does not advance the host's position State.index, so a reserved command accepted at
an edge is recorded with the position the state has, not with its number among the commands accepted. DESIGN
CHOICE (log entry 25): cmd_ready, once 1 with no command outstanding, stays 1 until a command is accepted or
rst = 1. -/
def State.edge (inp : PortIn) (s : State) : Host.Outcome State Fault Refusal :=
  if inp.rst then .next s.rstEdge
  else
    match s.port with
    | .idle (n + 1) => .next { s with port := .idle n }
    | .idle 0 => if inp.cmdValid then s.accept inp.cmdWord else .next s
    | .outstanding (n + 1) r => .next { s with port := .outstanding n r }
    | .outstanding 0 _ => if inp.rspReady then .next s.awaitReady else .next s

/-- One edge after another. -/
def State.edges : List PortIn → State → Host.Outcome State Fault Refusal
  | [], s => .next s
  | inp :: rest, s =>
    match s.edge inp with
    | .next t => State.edges rest t
    | .fault f => .fault f
    | .refused r => .refused r

/-- One command of the host's list (R33, R191). With a response outstanding, the host takes it first: "every
host step eventually takes the response" (R189). With no command left the state is held (R173). -/
def State.stepCommand (s : State) : Host.Outcome State Fault Refusal :=
  match s.port with
  | .outstanding _ _ => .next s.takeResponse
  | .idle _ =>
    match s.nextCommand with
    | none => .next s
    | some w =>
      match s.accept w with
      | .next t => .next t.takeResponse
      | .fault f => .fault f
      | .refused r => .refused r

end Sys2Proof.Machine
end

