-- ==== Sys2Proof/Machine/Step.lean ====
section
/-! DEFINITION. The model's step (spec/70_reset_and_hazards.md R191): one whole command, offered by the host,
accepted, performed and answered, its response taken. -/

namespace Sys2Proof.Machine

/-- R191: one whole command of the host's list. -/
def step (s : State) : Host.Outcome State Fault Refusal := s.stepCommand

/-- s with the command word w as the host's next command; the word has at most 40 bits, and those above
nbits are 0 (R64). -/
def State.withFetchWord (s : State) (_nbits w : Nat) : State := s.offer (BitVec.ofNat 40 w)

end Sys2Proof.Machine
end

