-- ==== Sys2Proof/Machine/Assembler.lean ====
section
/-! DEFINITION. The assembler of spec/30_encoding.md: lines and their command words (R76), the
pseudo-instructions WRITES (R77) and NEW (R78), and the text form of a line. It is the host's notation; the
block sees only the words. -/

namespace Sys2Proof.Machine

/-- One line of assembler. -/
inductive AsmLine where
  /-- A command by its mnemonic. -/
  | command (i : Instr)
  /-- `.word`: a raw command word. -/
  | word (w : CmdWord)
  /-- The pseudo-instruction WRITES. -/
  | writes (bytes : List Byte)
  /-- The pseudo-instruction NEW. -/
  | new
  deriving DecidableEq, Repr

/-- R77: beats of 4 bytes in order, then one beat of the last n mod 4 bytes if there are any. -/
def beats : List Byte → List (List Byte)
  | b0 :: b1 :: b2 :: b3 :: rest => [b0, b1, b2, b3] :: beats rest
  | [] => []
  | [b0] => [[b0]]
  | [b0, b1] => [[b0, b1]]
  | [b0, b1, b2] => [[b0, b1, b2]]

/-- R77: the WRITE commands that `WRITES bytes` expands to. -/
def writesCommands (bytes : List Byte) : List Instr := (beats bytes).map Instr.write

/-- The command words of a line (R76 to R78). -/
def AsmLine.assemble : AsmLine → List CmdWord
  | .command i => [encode i]
  | .word w => [w]
  | .writes bytes => (writesCommands bytes).map encode
  | .new => [encode .reset]

/-- The characters of a line before its comment: `;` starts one outside a string (R76). -/
def stripComment : Bool → List Char → List Char
  | _, [] => []
  | inString, c :: cs =>
    if c = '"' then c :: stripComment (!inString) cs
    else if c = ';' ∧ inString = false then []
    else c :: stripComment inString cs

/-- A blank or a tab. -/
def isBlank (c : Char) : Bool := c = ' ' || c = '\t'

/-- A list of characters without the blanks around it. -/
def trimBlanks (cs : List Char) : List Char :=
  ((cs.dropWhile isBlank).reverse.dropWhile isBlank).reverse

/-- The items of an operand list, cut at the commas outside strings; `item` is the one being read,
backwards. -/
def splitItems : Bool → List Char → List Char → List (List Char)
  | _, item, [] => [item.reverse]
  | inString, item, c :: cs =>
    if c = '"' then splitItems (!inString) (c :: item) cs
    else if c = ',' ∧ inString = false then item.reverse :: splitItems false [] cs
    else splitItems inString (c :: item) cs

/-- The value of a digit below the base; hexadecimal digits in either case. -/
def digitValue (base : Nat) (c : Char) : Option Nat :=
  let n := c.toNat
  let v :=
    if 48 ≤ n ∧ n ≤ 57 then n - 48
    else if 97 ≤ n ∧ n ≤ 102 then n - 87
    else if 65 ≤ n ∧ n ≤ 70 then n - 55
    else base
  if v < base then some v else none

/-- The number its digits write, most significant first, after `acc`. -/
def numeral (base : Nat) : Nat → List Char → Option Nat
  | acc, [] => some acc
  | acc, c :: cs => (digitValue base c).bind fun d => numeral base (base * acc + d) cs

/-- A `<byte>`: decimal 0..255, or `0x` and two hex digits (R76). -/
def parseByte (cs : List Char) : Option Byte :=
  match cs with
  | ['0', 'x', h, l] => (numeral 16 0 [h, l]).map (BitVec.ofNat 8)
  | [] => none
  | _ => (numeral 10 0 cs).bind fun n => if n ≤ 255 then some (BitVec.ofNat 8 n) else none

/-- The ASCII codes of the characters up to the closing quote, which ends the item; printable ASCII only, no
escapes (R76). DESIGN CHOICE (log entry 15): an empty string is an item of no byte, in the list of a WRITE
too, whose bytes together are 1 to 4. -/
def parseChars : List Char → Option (List Byte)
  | [] => none
  | ['"'] => some []
  | c :: cs =>
    if c ≠ '"' ∧ 0x20 ≤ c.toNat ∧ c.toNat ≤ 0x7e then
      (parseChars cs).map (BitVec.ofNat 8 c.toNat :: ·)
    else none

/-- One item of an operand list: a string or one byte. -/
def parseItem (cs : List Char) : Option (List Byte) :=
  match trimBlanks cs with
  | '"' :: rest => parseChars rest
  | cs' => (parseByte cs').map ([·])

/-- All items of an operand list; nothing but blanks is the empty list. -/
def parseBytes (cs : List Char) : Option (List Byte) :=
  if trimBlanks cs = [] then some []
  else ((splitItems false [] cs).mapM parseItem).map List.flatten

/-- The word of `.word 0x<10 hex digits>`. -/
def parseWord (cs : List Char) : Option CmdWord :=
  match trimBlanks cs with
  | '0' :: 'x' :: digits =>
    if digits.length = 10 then (numeral 16 0 digits).map (BitVec.ofNat 40) else none
  | _ => none

/-- A mnemonic without operands. -/
def bareLine (operands : List Char) (line : AsmLine) : Option (List AsmLine) :=
  if trimBlanks operands = [] then some [line] else none

/-- One line of text: none is a syntax error, the empty list a line with no command. -/
def parseLine (text : List Char) : Option (List AsmLine) :=
  let cs := trimBlanks (stripComment false text)
  let mnemonic := cs.takeWhile (fun c => !isBlank c)
  let operands := cs.dropWhile (fun c => !isBlank c)
  if mnemonic = [] then some []
  else if mnemonic = ['W', 'R', 'I', 'T', 'E'] then
    (parseBytes operands).bind fun bytes =>
      if 1 ≤ bytes.length ∧ bytes.length ≤ 4 then some [.command (.write bytes)] else none
  else if mnemonic = ['W', 'R', 'I', 'T', 'E', 'S'] then
    (parseBytes operands).map fun bytes => [.writes bytes]
  else if mnemonic = ['C', 'H', 'E', 'C', 'K', 'S', 'U', 'M'] then
    bareLine operands (.command .checksum)
  else if mnemonic = ['A', 'P', 'P', 'E', 'N', 'D'] then bareLine operands (.command .append)
  else if mnemonic = ['R', 'E', 'S', 'E', 'T'] then bareLine operands (.command .reset)
  else if mnemonic = ['C', 'S', 'I', 'Z', 'E'] then bareLine operands (.command .csize)
  else if mnemonic = ['B', 'S', 'I', 'Z', 'E'] then bareLine operands (.command .bsize)
  else if mnemonic = ['N', 'E', 'W'] then bareLine operands .new
  else if mnemonic = ['.', 'w', 'o', 'r', 'd'] then
    (parseWord operands).map fun w => [.word w]
  else none

/-- The command words of a program text, line by line. -/
def assembleText (lines : List (List Char)) : Option (List CmdWord) :=
  (lines.mapM parseLine).map fun ls => ls.flatten.flatMap AsmLine.assemble

end Sys2Proof.Machine
end

