-- ==== Sys2Proof/Machine/Instances.lean ====
section
/-! DEFINITION. Any number of independent instances (spec/10_state.md R37, spec/60_exceptions.md R170): each has
its own state, ports and host. -/

namespace Sys2Proof.Machine

/-- Instance k takes a step; there is no inter-instance signal (R170). A number with no instance names
nothing, and nothing happens. -/
def stepInstance (k : Nat) (system : List State) : Host.Outcome (List State) Fault Refusal :=
  match system[k]? with
  | none => .next system
  | some s =>
    match step s with
    | .next t => .next (system.set k t)
    | .fault f => .fault f
    | .refused r => .refused r

end Sys2Proof.Machine
end

