-- ==== Sys2Proof/Machine/Flags.lean ====
section
/-! DEFINITION. The only status of the block (spec/10_state.md R28): aligned or has_pending, a reading of
pendingLen. There are no flags or condition codes. -/

namespace Sys2Proof.Machine

/-- The two logical states of R28. -/
inductive LogicalState where
  | aligned
  | hasPending
  deriving DecidableEq, Repr

/-- R28: aligned when pendingLen = 0, has_pending when 0 < pendingLen < 4. -/
def Block.logicalState (b : Block) : LogicalState :=
  if b.pendingLen = 0 then .aligned else .hasPending

end Sys2Proof.Machine
end

