-- ==== Sys2Proof/Safety.lean ====
section
/-! DEFINITION. The terms that claims use: a command boundary, a run without a recorded fault, the record
of a run, a list of commands performed one after another, and the byte stream since the last reset
(spec/20_memory.md R41, spec/60_exceptions.md R163, spec/70_reset_and_hazards.md R190). -/

namespace Sys2Proof.Machine

/-- No command is outstanding (R51, R184). -/
def State.atBoundary (s : State) : Bool :=
  match s.port with
  | .idle _ => true
  | .outstanding _ _ => false

/-- "no fault recorded", the premise of D29. -/
abbrev State.noFaultRecorded (s : State) : Prop := s.faults = []

/-- A response the hardware can produce: OK, or ILLEGAL with zero data (R73, R162). -/
abbrev Response.legal (r : Response) : Prop :=
  r.status = statusOk ∨ (r.status = statusIllegal ∧ r.data = 0)

/-- The fault record that the responses call for, the first of them being that of command number n. -/
def illegalIn : Nat → List Response → List FaultRecord
  | _, [] => []
  | n, r :: rs =>
    if r.status = statusIllegal then .illegalCommand n :: illegalIn (n + 1) rs
    else illegalIn (n + 1) rs

/-- What is true of the record of a run at every command boundary: one response per completed command
(R62), each one the hardware can produce (R73), a fault recorded for exactly the commands answered ILLEGAL
(R163), and a host buffer made of 32-byte blocks (R126, R130). -/
abbrev State.runRecordOk (s : State) : Prop :=
  s.atBoundary = true ∧ s.responses.length = s.index ∧ (∀ r ∈ s.responses, r.legal) ∧
    s.faults = illegalIn 0 s.responses ∧ s.buffer.length % 32 = 0

/-- The meanings of a list of commands, one after another. -/
def perform : List Instr → State → Host.Outcome State Fault Refusal
  | [], s => .next s
  | i :: is, s =>
    match exec i s with
    | .next t => perform is t
    | .fault f => .fault f
    | .refused r => .refused r

/-- The responses of a list of commands, one after another (R190). -/
def responsesOf : List Instr → State → List Response
  | [], _ => []
  | i :: is, s =>
    match exec i s with
    | .next t =>
      match t.port with
      | .outstanding _ r => r :: responsesOf is t
      | .idle _ => responsesOf is t
    | .fault _ => []
    | .refused _ => []

/-- The bytes that a list of commands makes the host append: the serialized checksum of the block at each
APPEND (R130, R190). -/
def appendsOf : List Instr → State → List Byte
  | [], _ => []
  | i :: is, s =>
    (if i = .append then serialize s.block.finalize else []) ++
      match exec i s with
      | .next t => appendsOf is t
      | .fault _ => []
      | .refused _ => []

/-- The fault record that a list of commands calls for, the first of them being command number n: one entry
for each reserved op (R163). -/
def illegalAt : Nat → List Instr → List FaultRecord
  | _, [] => []
  | n, i :: is =>
    if i = .reserved0 ∨ i = .reserved7 then .illegalCommand n :: illegalAt (n + 1) is
    else illegalAt (n + 1) is

/-- The stream of R41 after more commands: a WRITE adds its bytes, a RESET empties it, nothing else adds
to it. -/
def streamAfter : List Byte → List Instr → List Byte
  | B, [] => B
  | B, .write bytes :: is => streamAfter (B ++ bytes) is
  | _, .reset :: is => streamAfter [] is
  | B, .reserved0 :: is => streamAfter B is
  | B, .checksum :: is => streamAfter B is
  | B, .append :: is => streamAfter B is
  | B, .csize :: is => streamAfter B is
  | B, .bsize :: is => streamAfter B is
  | B, .reserved7 :: is => streamAfter B is

/-- Two blocks that differ at most in bytes pending[j] with j ≥ pendingLen (R25). -/
abbrev Block.sameValid (a b : Block) : Prop :=
  a.sums = b.sums ∧ a.pendingLen = b.pendingLen ∧ a.validPending = b.validPending

/-- The stream's last bytes, those after its last whole word (R43). -/
def streamTail (B : List Byte) : List Byte := B.drop (4 * (B.length / 4))

/-- The four sums of a stream's whole words folded from zero. -/
def streamSums (B : List Byte) : Sums := foldWords { s0 := 0, s1 := 0, s2 := 0, s3 := 0 } (wordsOf B)

/-- The block holds the stream B: its whole words folded from zero, its last bytes pending, and their count
(R24, R35, R41). -/
abbrev Block.holdsStream (B : List Byte) (b : Block) : Prop :=
  b.sums = streamSums B ∧ b.validPending = streamTail B ∧ b.pendingLen.toNat = B.length % 4

/-- The checksum of a stream, a pure function of its bytes (R35, R120). -/
def streamChecksum (B : List Byte) : Sums :=
  if B.length % 4 = 0 then streamSums B
  else foldPure (streamSums B) (BitVec.ofNat 32 (ofBytesLE (streamTail B)))

/-- The sum over a list of words of coef (how many words from this one to the last) times the word, each
zero-extended to 64 bits (the sums of R94). -/
def weighted (coef : Nat → Nat) : List Word → Sum
  | [] => 0
  | v :: vs => BitVec.ofNat 64 (coef (vs.length + 1)) * v.setWidth 64 + weighted coef vs

/-- R94: the closed form of k folds. A word that is the m-th from the end has weight C(m + r - 1, r) in
sum r, where m = k - i + 1 for the word v_i. -/
def foldClosed (S : Sums) (vs : List Word) : Sums :=
  let k := vs.length
  let c (n : Nat) : Sum := BitVec.ofNat 64 n
  { s0 := S.s0 + weighted (fun _ => 1) vs
    s1 := S.s1 + c k * S.s0 + weighted (fun m => m) vs
    s2 := S.s2 + c k * S.s1 + c ((k + 1).choose 2) * S.s0 + weighted (fun m => (m + 1).choose 2) vs
    s3 := S.s3 + c k * S.s2 + c ((k + 1).choose 2) * S.s1 + c ((k + 2).choose 3) * S.s0
      + weighted (fun m => (m + 2).choose 3) vs }

/-- An edge at which the host does nothing: no reset, no command, no response taken. -/
def quietEdge : PortIn := { rst := false, cmdValid := false, cmdWord := 0, rspReady := false }

/-- An edge at which the host offers command word w. -/
def offerEdge (w : CmdWord) : PortIn :=
  { rst := false, cmdValid := true, cmdWord := w, rspReady := false }

/-- An edge at which the host takes a response. -/
def takeEdge : PortIn := { rst := false, cmdValid := false, cmdWord := 0, rspReady := true }

/-- The bits of a command word that its command uses, the same in both words: op, and for a WRITE lenm1 and
the lanes below the count (R69). -/
abbrev sameUsedBits (w w' : CmdWord) : Prop :=
  opField w = opField w' ∧
    (opField w = 0b001 →
      lenm1Field w = lenm1Field w' ∧ ∀ j < byteCount w, lane w j = lane w' j)

/-- The mask of the used bits of a word: op alone, or for a WRITE op, lenm1 and its count of lanes (R64). -/
def usedMask (w : CmdWord) : CmdWord :=
  if opField w = 0b001 then BitVec.ofNat 40 ((2 ^ (8 * byteCount w) - 1) * 2 ^ 8 + 0x1f)
  else 0x7

end Sys2Proof.Machine
end

