-- ==== Sys2Proof/Certificates/Slice0/Obligations.lean ====
section
/-! DEFINITION. The statements about FL4-CORE, in the order of the spec's files: encoding, fold, WRITE,
finalization, control and errors, state, step and run, ports, instances. -/

open Sys2Proof Sys2Proof.Machine

/-! ## Encoding -/

/-- Every command that a word can carry is read back from its word with every operand (30_encoding.md
sections 2 to 4 and 6). -/
def Obligations.EncodeThenDecodeGivesTheCommand : Prop :=
  ∀ i : Instr, i.wellFormed = true → decode (encode i) = i

/-- "Every 40-bit word decodes to exactly one of the six commands or to ILLEGAL, by op alone" (R72, an
inference the spec marks as its own), and to one that a word can carry. -/
def Obligations.DecodingIsTotalByOp : Prop :=
  ∀ w : CmdWord, (decode w).op = opField w ∧ (decode w).wellFormed = true

/-- R69: words that differ only in ignored bits are the same command, with the same response and state. -/
def Obligations.IgnoredBitsChangeNothing : Prop :=
  ∀ w w' : CmdWord, sameUsedBits w w' →
    decode w = decode w' ∧ ∀ s : State, s.accept w = s.accept w'

/-- R76: the assembler writes 0 in every ignored bit and leaves every used bit as it was. -/
def Obligations.EncodingClearsTheIgnoredBits : Prop :=
  ∀ w : CmdWord, encode (decode w) = w &&& usedMask w

/-- R68: the bytes of a WRITE word are its lanes below the count, lane 0 first, and no other bit of the
data field enters the stream. -/
def Obligations.WriteWordCarriesItsLanes : Prop :=
  ∀ w : CmdWord, opField w = 0b001 → ∃ bytes : List Byte,
    decode w = .write bytes ∧ bytes.length = (w.extractLsb' 3 2).toNat + 1 ∧
      ∀ j < bytes.length, bytes[j]? = some (w.extractLsb' (8 * j + 8) 8)

/-- A few words written out from the encoding of R64 to R70, one for each op (DEC-1 to DEC-8, P1, RST-1,
CONST-1, CONST-2 of 95_test_vectors.md). -/
def Obligations.WrittenOutWordsDecode : Prop :=
  decode 0x0000000000 = .reserved0 ∧ decode 0xffffffffff = .reserved7 ∧
  decode 0x6c6c656819 = .write [0x68, 0x65, 0x6c, 0x6c] ∧ decode 0x0003020111 = .write [1, 2, 3] ∧
  decode 0x1234567809 = .write [0x78, 0x56] ∧ decode 0xffffff6f01 = .write [0x6f] ∧
  decode 0xfffffffffa = .checksum ∧ decode 0x0000000003 = .append ∧ decode 0x000000000c = .reset ∧
  decode 0x0000000005 = .csize ∧ decode 0x0000000006 = .bsize

/-! ## Byte order and the fold -/

/-- R42: le32 is the little-endian number of its four bytes. -/
def Obligations.WordIsLittleEndian : Prop :=
  ∀ b0 b1 b2 b3 : Byte,
    (le32 b0 b1 b2 b3).toNat = b0.toNat + 2 ^ 8 * b1.toNat + 2 ^ 16 * b2.toNat + 2 ^ 24 * b3.toNat

/-- R45: byte (8w + k) of the serialization is S_w[8k+7 : 8k]. -/
def Obligations.SerializationIsLittleEndianInWordOrder : Prop :=
  ∀ F : Sums, (serialize F).length = 32 ∧ ∀ k < 8,
    (serialize F)[k]? = some (F.s0.extractLsb' (8 * k) 8) ∧
    (serialize F)[8 + k]? = some (F.s1.extractLsb' (8 * k) 8) ∧
    (serialize F)[16 + k]? = some (F.s2.extractLsb' (8 * k) 8) ∧
    (serialize F)[24 + k]? = some (F.s3.extractLsb' (8 * k) 8)

/-- R90: the fold of one word writes `s0 += v; s1 += s0; s2 += s1; s3 += s2`, each line reading what the line
before it wrote, and nothing but the four sums. -/
def Obligations.FoldWritesTheFourStages : Prop :=
  ∀ (b : Block) (b0 b1 b2 b3 : Byte),
    let v := (le32 b0 b1 b2 b3).setWidth 64
    let t0 := b.sums.s0 + v
    let t1 := b.sums.s1 + t0
    let t2 := b.sums.s2 + t1
    let t3 := b.sums.s3 + t2
    b.foldBlock [b0, b1, b2, b3] =
      .ok { b with sums := { s0 := t0, s1 := t1, s2 := t2, s3 := t3 } }

/-- The fold in numbers: the word is unsigned (R93), each sum is expanded over all lower ones (R91) and kept
modulo 2^64 (R92, the spec's decision D9). -/
def Obligations.FoldIsModularAndUnsigned : Prop :=
  ∀ (S : Sums) (v : Word),
    (foldPure S v).s0.toNat = (S.s0.toNat + v.toNat) % 2 ^ 64 ∧
    (foldPure S v).s1.toNat = (S.s1.toNat + S.s0.toNat + v.toNat) % 2 ^ 64 ∧
    (foldPure S v).s2.toNat = (S.s2.toNat + S.s1.toNat + S.s0.toNat + v.toNat) % 2 ^ 64 ∧
    (foldPure S v).s3.toNat =
      (S.s3.toNat + S.s2.toNat + S.s1.toNat + S.s0.toNat + v.toNat) % 2 ^ 64

/-- The closed form of any number of folds in a row, with binomial weights (R94, an inference the spec marks
as its own). -/
def Obligations.FoldsHaveTheClosedForm : Prop :=
  ∀ (S : Sums) (vs : List Word), foldWords S vs = foldClosed S vs

/-- R161: the block fold raises ContractViolation, with the length, on a length that is no multiple of 4, and
only then; on a multiple of 4 it folds the words in order (R102). -/
def Obligations.BlockFoldFaultsOnPartialBlocks : Prop :=
  ∀ (bytes : List Byte) (b : Block),
    (bytes.length % 4 ≠ 0 → b.foldBlock bytes = .error (.contractViolation bytes.length)) ∧
    (bytes.length % 4 = 0 →
      b.foldBlock bytes = .ok { b with sums := foldWords b.sums (wordsOf bytes) })

/-! ## WRITE -/

/-- WRITE as one equation: with T the valid pending bytes followed by the new ones, the whole words of T are
folded in order and the rest is pending; the response is OK with the count, and nothing else changes
(R96, an inference the spec marks as its own; R98). It holds of every list of bytes. -/
def Obligations.WriteIsOneEquation : Prop :=
  ∀ (bytes : List Byte) (s : State), ∃ b' : Block,
    let T := s.block.validPending ++ bytes
    exec (.write bytes) s =
        .next { s with
          block := b'
          port := .outstanding 0 { status := 0b00, data := BitVec.ofNat 256 bytes.length } } ∧
      b'.sums = foldWords s.block.sums (wordsOf T) ∧
      b'.validPending = T.drop (4 * (T.length / 4)) ∧
      b'.pendingLen.toNat = T.length % 4

/-- WRITE of 1 to 4 bytes is what the assembly datapath does, stale bytes included (R97, an inference the
spec marks as its own). -/
def Obligations.WriteIsTheAssemblyDatapath : Prop :=
  ∀ (bytes : List Byte) (s : State), 1 ≤ bytes.length → bytes.length ≤ 4 →
    exec (.write bytes) s =
      .next { s with
        block := s.block.writeDatapath bytes
        port := .outstanding 0 { status := 0b00, data := BitVec.ofNat 256 bytes.length } }

/-- R99: WRITE has no error condition, for every word with op 001 and every state; it answers OK and the
count of its word. -/
def Obligations.WriteNeverFails : Prop :=
  ∀ (w : CmdWord) (s : State), opField w = 0b001 → ∃ (t : State) (n : Nat) (r : Response),
    s.accept w = .next t ∧ t.port = .outstanding n r ∧ r.status = 0b00 ∧
      r.data.toNat = (lenm1Field w).toNat + 1

/-- Chunking invariance (R101, with the spec's own inference that it holds of the whole state): however the
same bytes are split into writes, from the same state, the sums, pendingLen and the valid pending bytes
end up the same, and so does the checksum. -/
def Obligations.ChunkingDoesNotMatter : Prop :=
  ∀ (xs ys : List (List Byte)) (s : State), xs.flatten = ys.flatten → ∃ t u : State,
    perform (xs.map Instr.write) s = .next t ∧ perform (ys.map Instr.write) s = .next u ∧
      t.block.sameValid u.block ∧ t.block.finalize = u.block.finalize

/-- The pseudo-instruction WRITES (R77): whole beats of 4 bytes in order and then one of the rest, no byte
lost, every command one that a word can carry. -/
def Obligations.WritesExpandsIntoBeats : Prop :=
  ∀ bytes : List Byte, (beats bytes).flatten = bytes ∧
    (∀ i ∈ writesCommands bytes, i.wellFormed = true) ∧
    ∃ full : List (List Byte), (∀ x ∈ full, x.length = 4) ∧ full.length = bytes.length / 4 ∧
      beats bytes =
        full ++ (if bytes.length % 4 = 0 then [] else [bytes.drop (4 * (bytes.length / 4))])

/-! ## Finalization -/

/-- R121: the padded word uses only the valid pending bytes, whatever the others hold. -/
def Obligations.PaddingMasksStaleBytes : Prop :=
  ∀ b : Block, b.paddedWord.toNat = ofBytesLE b.validPending ∧
    b.paddedWord.toNat < 2 ^ (8 * b.pendingLen.toNat)

/-- R122: aligned, the checksum is the raw sums; and a zero word folded in would differ whenever S0 ≠ 0 (the
spec's own inference). -/
def Obligations.AlignedFoldsNoZeroWord : Prop :=
  (∀ b : Block, b.logicalState = .aligned → b.finalize = b.sums) ∧
    ∀ S : Sums, S.s0 ≠ 0 → foldPure S 0 ≠ S

/-- R124, R120: CHECKSUM answers OK with the finalized words, s0 lowest, and changes nothing. Finalized: the
sums as they stand when no byte is pending, else with the zero-padded word folded into a copy. -/
def Obligations.ChecksumReturnsTheFinalizedSums : Prop :=
  ∀ s : State, ∃ r : Response,
    let F :=
      if s.block.pendingLen = 0 then s.block.sums
      else foldPure s.block.sums (BitVec.ofNat 32 (ofBytesLE s.block.validPending))
    exec .checksum s = .next { s with port := .outstanding 0 r } ∧ r.status = 0b00 ∧
      r.data.extractLsb' 0 64 = F.s0 ∧ r.data.extractLsb' 64 64 = F.s1 ∧
      r.data.extractLsb' 128 64 = F.s2 ∧ r.data.extractLsb' 192 64 = F.s3

/-- R126, R127: APPEND answers OK with the 32 serialized bytes of the finalized sums, byte j in
rsp_data[8j+7 : 8j], and changes nothing. -/
def Obligations.AppendReturnsTheSerializedBytes : Prop :=
  ∀ s : State, ∃ r : Response,
    exec .append s = .next { s with port := .outstanding 0 r } ∧ r.status = 0b00 ∧
      (serialize s.block.finalize).length = 32 ∧
      ∀ j < 32, (serialize s.block.finalize)[j]? = some (r.data.extractLsb' (8 * j) 8)

/-- R129: the response of APPEND equals the response of CHECKSUM in the same state. -/
def Obligations.AppendAnswersAsChecksum : Prop :=
  ∀ s : State, exec .append s = exec .checksum s

/-- R128: two APPENDs in succession extend the host's buffer by the same 32 bytes twice, and leave the
block and the bytes already there as they were. -/
def Obligations.AppendTwiceAppendsTheSameBytes : Prop :=
  ∀ (s : State) (w w' : CmdWord) (rest : List CmdWord) (n : Nat),
    s.port = .idle n → s.commands = w :: w' :: rest → opField w = 0b011 → opField w' = 0b011 →
    ∃ t u : State, step s = .next t ∧ step t = .next u ∧ u.block = s.block ∧
      t.buffer = s.buffer ++ serialize s.block.finalize ∧
      u.buffer = s.buffer ++ serialize s.block.finalize ++ serialize s.block.finalize

/-- R123: a read leaves the live state as it was, so that every later command sees it; the same holds of
CSIZE, BSIZE and the reserved ops (R167). -/
def Obligations.ReadsDoNotDisturbLaterCommands : Prop :=
  ∀ (i : Instr) (is : List Instr) (s : State), (∀ bytes, i ≠ .write bytes) → i ≠ .reset →
    ∃ t u : State, perform (i :: is) s = .next t ∧ perform is s = .next u ∧ t.block = u.block

/-- The padding law (R125, its last clause an inference the spec marks as its own): the checksum after a stream whose length is no multiple of 4 equals the one
after that stream and the zero bytes up to the next multiple; the second state is aligned and its sums
include the padded word. -/
def Obligations.PaddingLaw : Prop :=
  ∀ B : List Byte, B.length % 4 ≠ 0 → ∃ (t u : State) (r : Response),
    perform (writesCommands B) State.reset = .next t ∧
    perform (writesCommands (B ++ List.replicate (4 - B.length % 4) 0)) State.reset = .next u ∧
    exec .checksum t = .next { t with port := .outstanding 0 r } ∧
    exec .checksum u = .next { u with port := .outstanding 0 r } ∧
    u.block.logicalState = .aligned ∧ u.block.sums = t.block.finalize

/-! ## Control and errors -/

/-- R140: RESET clears every register of the block and answers (OK, 0). The three pending bytes read 0 by
the spec's decision D14. -/
def Obligations.ResetClearsTheBlock : Prop :=
  ∀ s : State, exec .reset s =
    .next { s with
      block :=
        { sums := { s0 := 0, s1 := 0, s2 := 0, s3 := 0 }, pending0 := 0, pending1 := 0,
          pending2 := 0, pendingLen := 0 }
      port := .outstanding 0 { status := 0b00, data := 0 } }

/-- Reset idempotence (R141, with the spec's own inference that everything after is identical): after RESET,
any commands leave a used block as they leave a fresh one, and the checksum is the same. -/
def Obligations.ResetMakesTheBlockFresh : Prop :=
  ∀ (is : List Instr) (s : State), ∃ t u : State,
    perform (.reset :: is) s = .next t ∧ perform is State.reset = .next u ∧ t.block = u.block ∧
      t.block.finalize = u.block.finalize

/-- R142, R143, R144: CSIZE answers (OK, 32) and BSIZE (OK, 4) in every state, and neither changes
anything. -/
def Obligations.SizesAreThirtyTwoAndFour : Prop :=
  ∀ s : State,
    exec .csize s = .next { s with port := .outstanding 0 { status := 0b00, data := 32 } } ∧
    exec .bsize s = .next { s with port := .outstanding 0 { status := 0b00, data := 4 } }

/-- A reserved op is answered ILLEGAL with zero data and changes no state of the hardware (R162). That the
record of the run gains IllegalCommand with the command's index is the model's bookkeeping, not the
hardware's (log entry 4, from R163 and decision D29). -/
def Obligations.ReservedOpsAreAnsweredIllegal : Prop :=
  ∀ (i : Instr) (s : State), i = .reserved0 ∨ i = .reserved7 → exec i s =
    .next { s with
      port := .outstanding 0 { status := 0b01, data := 0 }
      faults := s.faults ++ [.illegalCommand s.index] }

/-- R162: every word with op 000 or 111 is accepted and answered (ILLEGAL, 0), every register of the block stays,
and once the response is taken any next command is accepted as usual. -/
def Obligations.ReservedWordsChangeNoRegister : Prop :=
  ∀ (w : CmdWord) (s : State), opField w = 0b000 ∨ opField w = 0b111 →
    ∃ (t : State) (n : Nat), s.accept w = .next t ∧
      t.port = .outstanding n { status := 0b01, data := 0 } ∧ t.block = s.block ∧
      ∀ w' : CmdWord, ∃ u : State, t.takeResponse.accept w' = .next u

/-- R160: every command with op 001 to 110 completes with status OK. -/
def Obligations.LegalOpsCompleteWithOk : Prop :=
  ∀ (w : CmdWord) (s : State), opField w ≠ 0b000 → opField w ≠ 0b111 →
    ∃ (t : State) (n : Nat) (r : Response),
      s.accept w = .next t ∧ t.port = .outstanding n r ∧ r.status = 0b00 ∧ t.faults = s.faults

/-! ## State -/

/-- The values of the reset state in which a run starts (R184): those of R36 in every register of the block (the
pending bytes by the spec's decision D14), and the logical state. That each reset event leads to these values
is EveryResetEventClearsTheBlock. -/
def Obligations.ResetStateIsZero : Prop :=
  State.reset.block.sums = { s0 := 0, s1 := 0, s2 := 0, s3 := 0 } ∧
    State.reset.block.pendingLen = 0 ∧ State.reset.block.pendingBytes = [0, 0, 0] ∧
    State.reset.block.logicalState = .aligned

/-- The frame of every command: it leaves the host's list, position, responses and buffer and the model's
counter alone, adds to the fault record only for a reserved op, and its response stands on the port. -/
def Obligations.CommandsLeaveTheHostAlone : Prop :=
  ∀ (i : Instr) (s : State), ∃ (t : State) (r : Response),
    exec i s = .next t ∧ t.port = .outstanding 0 r ∧ t.commands = s.commands ∧
      t.index = s.index ∧ t.responses = s.responses ∧ t.buffer = s.buffer ∧ t.draws = s.draws ∧
      (i ≠ .reserved0 → i ≠ .reserved7 → t.faults = s.faults)

/-- No command but WRITE and RESET changes any register of the block (R27), and at the ports nothing else but
rst does. That the accepting edge is the one at which a register changes is the model's choice (log
entry 23). -/
def Obligations.OnlyWriteAndResetChangeTheBlock : Prop :=
  (∀ (i : Instr) (s : State), (∀ bytes, i ≠ .write bytes) → i ≠ .reset →
    ∃ t : State, exec i s = .next t ∧ t.block = s.block) ∧
  ∀ (inp : PortIn) (s : State), inp.rst = false →
    (inp.cmdValid = true → s.cmdReady false = true →
      (∀ bytes, decode inp.cmdWord ≠ .write bytes) ∧ decode inp.cmdWord ≠ .reset) →
    ∃ t : State, s.edge inp = .next t ∧ t.block = s.block

/-- The sums change only by a fold or a reset (R26): at any edge of the clock they stay, or a WRITE accepted there folds the whole words its bytes
complete, or they are cleared by rst (power-on included: s is any state) or by an accepted RESET. That they change at the accepting edge itself is the model's choice (log entry 23). -/
def Obligations.SumsChangeOnlyByFoldOrReset : Prop :=
  ∀ (inp : PortIn) (s : State), ∃ t : State, s.edge inp = .next t ∧
    (t.block.sums = s.block.sums ∨
      (inp.rst = true ∧ t.block.sums = { s0 := 0, s1 := 0, s2 := 0, s3 := 0 }) ∨
      (inp.rst = false ∧ inp.cmdValid = true ∧ s.cmdReady false = true ∧
        ((decode inp.cmdWord = .reset ∧ t.block.sums = { s0 := 0, s1 := 0, s2 := 0, s3 := 0 }) ∨
          ∃ bytes, decode inp.cmdWord = .write bytes ∧
            t.block.sums =
              foldWords s.block.sums (wordsOf (s.block.validPending ++ bytes)))))

/-- The logical state and pendingLen (R28, R29, an inference the spec marks as its own): a WRITE of n bytes
makes pendingLen (pendingLen + n) mod 4, a RESET forces aligned with the sums zeroed, and no other command
changes it. -/
def Obligations.PendingCountMovesByWriteCounts : Prop :=
  ∀ (i : Instr) (s : State), ∃ t : State, exec i s = .next t ∧
    match i with
    | .write bytes =>
      t.block.pendingLen.toNat = (s.block.pendingLen.toNat + bytes.length) % 4
    | .reset =>
      t.block.logicalState = .aligned ∧ t.block.sums = { s0 := 0, s1 := 0, s2 := 0, s3 := 0 }
    | _ => t.block.logicalState = s.block.logicalState ∧ t.block.pendingLen = s.block.pendingLen

/-- R25: pending bytes at j ≥ pendingLen are unobservable. Two states that differ only in them answer every
list of commands alike and end in states that differ only in such bytes (an inference the spec marks as its
own). -/
def Obligations.StalePendingBytesAreUnobservable : Prop :=
  ∀ (is : List Instr) (s : State) (b : Block), s.block.sameValid b → ∃ t u : State,
    perform is s = .next t ∧ perform is { s with block := b } = .next u ∧
      t.block.sameValid u.block ∧ t.port = u.port ∧ t.faults = u.faults

/-- The checksum and the whole state are a function of the bytes written since the last reset (R35, R24, with
the spec's own inference about the whole state). -/
def Obligations.TheStreamDeterminesTheState : Prop :=
  ∀ is : List Instr, ∃ t : State, perform is State.reset = .next t ∧
    t.block.sums = streamSums (streamAfter [] is) ∧
    t.block.validPending = streamTail (streamAfter [] is) ∧
    t.block.pendingLen.toNat = (streamAfter [] is).length % 4 ∧
    t.block.finalize = streamChecksum (streamAfter [] is)

/-- One command at a time: from a block that holds the stream B, every command leads to a block that holds the
stream after it, and so does a step on the word of that command (R35, R41, an inference the spec marks as its
own). That a step is one whole command of the host's list is log entries 1 and 2. -/
def Obligations.EveryCommandKeepsTheStream : Prop :=
  ∀ (B : List Byte) (s : State), s.block.holdsStream B →
    (∀ i : Instr, ∃ t : State, exec i s = .next t ∧ t.block.holdsStream (streamAfter B [i])) ∧
    ∀ (n : Nat) (w : CmdWord) (rest : List CmdWord), s.port = .idle n → s.commands = w :: rest →
      ∃ t : State, step s = .next t ∧ t.block.holdsStream (streamAfter B [decode w])

/-- The reset state holds the empty stream (R36, R41). -/
def Obligations.ResetHoldsTheEmptyStream : Prop :=
  State.reset.block.holdsStream []

/-- R52: a command other than WRITE is idempotent, one other than WRITE and RESET changes no state of the
block, and WRITE is not idempotent. -/
def Obligations.OnlyWriteIsNotIdempotent : Prop :=
  (∀ (i : Instr) (s : State), (∀ bytes, i ≠ .write bytes) → ∃ t u : State,
    exec i s = .next t ∧ exec i t = .next u ∧ u.port = t.port ∧ u.block = t.block ∧
      (i ≠ .reset → t.block = s.block)) ∧
  ∃ (bytes : List Byte) (s t u : State), bytes.length = 4 ∧
    exec (.write bytes) s = .next t ∧ exec (.write bytes) t = .next u ∧ t.block ≠ s.block ∧
      u.block ≠ t.block

/-! ## Step and run -/

/-- A step runs the decoded command: with no command outstanding, the head of the host's list is decoded
and performed, its response recorded, an APPEND's bytes put into the host's buffer, and the position
advances by exactly 1 (R33, R130, R191). The model's choice: that a step is the whole command (log entry 1),
that it waits from idle n and ends with the block ready again (log entry 10), and that the model's own
counter advances by 2 (log entry 7). -/
def Obligations.StepRunsTheDecodedCommand : Prop :=
  ∀ (s : State) (w : CmdWord) (rest : List CmdWord) (n : Nat),
    s.port = .idle n → s.commands = w :: rest → ∃ (t : State) (r : Response),
      exec (decode w) s = .next t ∧ t.port = .outstanding 0 r ∧
      step s = .next { t with
        port := .idle 0
        commands := rest
        index := s.index + 1
        responses := s.responses ++ [r]
        buffer :=
          s.buffer ++ (if decode w = .append ∧ r.status = 0b00 then unpackBytes r.data else [])
        draws := s.draws + 2 }

/-- The other two cases of a step, both the model's choice (log entries 3 and 10): with no command left it
holds the state, and with a response outstanding the host takes it. -/
def Obligations.StepHoldsOrTakesTheResponse : Prop :=
  (∀ (s : State) (n : Nat), s.port = .idle n → s.commands = [] → step s = .next s) ∧
    ∀ (s : State) (n : Nat) (r : Response), s.port = .outstanding n r → ∃ t : State,
      step s = .next t ∧ t.atBoundary = true ∧ t.block = s.block ∧ t.index = s.index + 1 ∧
        t.responses = s.responses ++ [r]

/-- Every step answers a next state: no command reaches ContractViolation, none is refused, and no state
disables the block (R30, R102, R161, R191). -/
def Obligations.EveryStepAnswersNext : Prop :=
  ∀ s : State, ∃ t : State, step s = .next t

/-- The record of a run stays right at every step (R62, R73, R163, R190): one response per completed command,
each one the hardware can produce, a fault recorded for exactly the commands answered ILLEGAL, no command
outstanding. The model's choice: a host buffer of 32-byte blocks, which supposes a buffer that was empty at
the start (log entry 11; a host may keep any, R189). -/
def Obligations.StepKeepsTheRunRecord : Prop :=
  ∀ s t : State, s.runRecordOk → step s = .next t → t.runRecordOk

/-- The record of a run is right at its start, whatever list the host has: position 0, no fault recorded, no
command outstanding (R184). The model's choice: the empty buffer (log entry 11) and the loaded list (log
entry 2). -/
def Obligations.RunRecordIsRightAtTheStart : Prop :=
  ∀ commands : List CmdWord, (State.boot commands).runRecordOk

/-- A run of the machine on the words of a list of commands is what the meanings of the list, one after
another, make it (R190, R191): the block, the responses, the host buffer and the fault record are theirs, the
list is used up and the position is its length. The model's choice: the buffer that is empty at the start
(log entry 11), the list loaded from outside (log entry 2), and the fault record (log entry 4). -/
def Obligations.RunPerformsTheWholeList : Prop :=
  ∀ is : List Instr, (∀ i ∈ is, i.wellFormed = true) → ∃ t u : State,
    Host.Core.run core is.length (State.boot (is.map encode)) = .next t ∧
      perform is State.reset = .next u ∧ t.block = u.block ∧ t.commands = [] ∧
      t.index = is.length ∧ t.responses = responsesOf is State.reset ∧
      t.buffer = appendsOf is State.reset ∧ t.faults = illegalAt 0 is

/-! ## Ports -/

/-- Each of the three reset events, power-on and rst from any state and the RESET command, puts every register
of the block into the reset state (R180); rst gives no response and abandons one that is outstanding (R182).
The pending bytes read 0 by the spec's decision D14. The model's choice: the host's recorded responses and
buffer stay across rst (log entry 12). -/
def Obligations.EveryResetEventClearsTheBlock : Prop :=
  ∀ (inp : PortIn) (s : State), inp.rst = true → ∃ (t u : State) (n : Nat),
    s.edge inp = .next t ∧ t.port = .idle n ∧ exec .reset s = .next u ∧
      u.port = .outstanding 0 { status := 0b00, data := 0 } ∧ t.block = u.block ∧
      t.block.sums = { s0 := 0, s1 := 0, s2 := 0, s3 := 0 } ∧ t.block.pendingLen = 0 ∧
      t.block.pendingBytes = [0, 0, 0] ∧ t.responses = s.responses ∧ t.buffer = s.buffer

/-- R181: while rst = 1 neither port offers anything, and from then on rsp_valid stays 0 until a command is
accepted. -/
def Obligations.NoResponseBeforeACommand : Prop :=
  (∀ s : State, s.cmdReady true = false ∧ s.rspOffered true = none) ∧
    ∀ (inp : PortIn) (s : State) (n : Nat), s.port = .idle n →
      inp.rst = true ∨ inp.cmdValid = false ∨ s.cmdReady false = false →
      ∃ (t : State) (m : Nat), s.edge inp = .next t ∧ t.port = .idle m ∧
        ∀ rst, t.rspOffered rst = none

/-- From acceptance to transfer cmd_ready = 0 and the response stays what it is (R62, R63); only an edge with
rsp_valid and rsp_ready transfers it. That the block no longer changes while the response is awaited is the
model's choice (log entry 23). -/
def Obligations.OneCommandOutstandingAndItsResponseStable : Prop :=
  ∀ (inp : PortIn) (s : State) (n : Nat) (r : Response),
    s.port = .outstanding n r → inp.rst = false → ∃ t : State,
      s.edge inp = .next t ∧ s.cmdReady false = false ∧ t.block = s.block ∧
      ((s.rspOffered false = some r ∧ inp.rspReady = true ∧ ∃ m, t.port = .idle m) ∨
        ((s.rspOffered false = none ∨ inp.rspReady = false) ∧ ∃ m, t.port = .outstanding m r))

/-- Every accepted command is answered after finitely many edges with its own response (R62, R63, R192): the
edge accepts the word, r is the response of its command, and that r is offered. From every state without a
command outstanding cmd_ready = 1 after finitely many edges. The model's choice: that the block is the
command's from the accepting edge on (log entry 23), and that after a transfer, too, cmd_ready rises a free
number of edges later (log entry 9). The waits are free values (log entry 7). -/
def Obligations.AcceptedCommandsAreAnswered : Prop :=
  (∀ (inp : PortIn) (s : State), inp.rst = false → inp.cmdValid = true → s.cmdReady false = true →
    ∃ (x t u : State) (n k : Nat) (r : Response),
      exec (decode inp.cmdWord) s = .next x ∧ x.port = .outstanding 0 r ∧
      s.accept inp.cmdWord = .next t ∧ s.edge inp = .next t ∧ t.port = .outstanding n r ∧
      t.block = x.block ∧
      State.edges (List.replicate k quietEdge) t = .next u ∧ u.rspOffered false = some r ∧
      u.block = t.block) ∧
  ∀ (s : State) (n : Nat), s.port = .idle n → ∃ (k : Nat) (u : State),
    State.edges (List.replicate k quietEdge) s = .next u ∧ u.cmdReady false = true ∧
      u.block = s.block

/-- The step of R191 is what the ports do: from a block that is ready or still waiting, offering the command
until it is accepted (R61), waiting, taking the response and waiting again, edge by edge, ends in the step's
state, but for the host's own record, which the step writes. The model's choice: that a step is the whole
command (log entry 1), that cmd_ready rises a free number of edges after the transfer (log entry 9), and that
a step waits for it before and after (log entry 10). -/
def Obligations.PortEdgesRefineTheStep : Prop :=
  ∀ (s : State) (w : CmdWord) (rest : List CmdWord) (n : Nat),
    s.port = .idle n → s.commands = w :: rest →
    ∃ (k m : Nat) (t u : State) (r : Response),
      State.edges (List.replicate (n + 1) (offerEdge w) ++ List.replicate k quietEdge) s = .next t ∧
      t.rspOffered false = some r ∧
      State.edges (takeEdge :: List.replicate m quietEdge) t = .next u ∧
      u.port = .idle 0 ∧
      step s = .next { u with
        commands := rest
        index := s.index + 1
        responses := s.responses ++ [r]
        buffer := s.buffer ++ appendedBytes (some w) r }

/-! ## Instances -/

/-- Instances share nothing (R37): where k names an instance, its state after is the step of its own state
alone, and every other instance is as it was. The model's choice: the list of states, and that a k which names
no instance does nothing (log entry 21). -/
def Obligations.InstancesShareNothing : Prop :=
  ∀ (k : Nat) (system : List State), ∃ system' : List State,
    stepInstance k system = .next system' ∧ system'.length = system.length ∧
      (∀ s, system[k]? = some s → ∃ t, step s = .next t ∧ system'[k]? = some t) ∧
      (system[k]? = none → system' = system) ∧
      ∀ j, j ≠ k → system'[j]? = system[j]?
end

