-- ==== Sys2Proof/Laws/State.lean ====
section
/-! SUPPORT. One lemma per field per update of the state: what an operation writes reads back, and every other
field is as it was. -/

namespace Sys2Proof.Machine

/-! ## storePending -/

@[simp] theorem storePending_sums (P : List Byte) (b : Block) :
    (b.storePending P).sums = b.sums := rfl

@[simp] theorem storePending_pendingLen (P : List Byte) (b : Block) :
    (b.storePending P).pendingLen = BitVec.ofNat 2 P.length := rfl

/-! ## respond -/

@[simp] theorem respond_port (st : BitVec 2) (d : RspData) (s : State) :
    (s.respond st d).port = .outstanding 0 { status := st, data := d } := rfl
@[simp] theorem respond_block (st : BitVec 2) (d : RspData) (s : State) :
    (s.respond st d).block = s.block := rfl
@[simp] theorem respond_commands (st : BitVec 2) (d : RspData) (s : State) :
    (s.respond st d).commands = s.commands := rfl
@[simp] theorem respond_index (st : BitVec 2) (d : RspData) (s : State) :
    (s.respond st d).index = s.index := rfl
@[simp] theorem respond_responses (st : BitVec 2) (d : RspData) (s : State) :
    (s.respond st d).responses = s.responses := rfl
@[simp] theorem respond_buffer (st : BitVec 2) (d : RspData) (s : State) :
    (s.respond st d).buffer = s.buffer := rfl
@[simp] theorem respond_faults (st : BitVec 2) (d : RspData) (s : State) :
    (s.respond st d).faults = s.faults := rfl
@[simp] theorem respond_draws (st : BitVec 2) (d : RspData) (s : State) :
    (s.respond st d).draws = s.draws := rfl

/-! ## answerIllegal -/

@[simp] theorem answerIllegal_port (s : State) :
    s.answerIllegal.port = .outstanding 0 { status := statusIllegal, data := 0 } := rfl
@[simp] theorem answerIllegal_faults (s : State) :
    s.answerIllegal.faults = s.faults ++ [.illegalCommand s.index] := rfl
@[simp] theorem answerIllegal_block (s : State) : s.answerIllegal.block = s.block := rfl
@[simp] theorem answerIllegal_commands (s : State) : s.answerIllegal.commands = s.commands := rfl
@[simp] theorem answerIllegal_index (s : State) : s.answerIllegal.index = s.index := rfl
@[simp] theorem answerIllegal_responses (s : State) :
    s.answerIllegal.responses = s.responses := rfl
@[simp] theorem answerIllegal_buffer (s : State) : s.answerIllegal.buffer = s.buffer := rfl
@[simp] theorem answerIllegal_draws (s : State) : s.answerIllegal.draws = s.draws := rfl

/-! ## resetBlock and awaitReady -/

@[simp] theorem resetBlock_block (s : State) : s.resetBlock.block = Block.atReset := rfl
@[simp] theorem resetBlock_port (s : State) : s.resetBlock.port = s.port := rfl
@[simp] theorem resetBlock_commands (s : State) : s.resetBlock.commands = s.commands := rfl
@[simp] theorem resetBlock_index (s : State) : s.resetBlock.index = s.index := rfl
@[simp] theorem resetBlock_responses (s : State) : s.resetBlock.responses = s.responses := rfl
@[simp] theorem resetBlock_buffer (s : State) : s.resetBlock.buffer = s.buffer := rfl
@[simp] theorem resetBlock_faults (s : State) : s.resetBlock.faults = s.faults := rfl
@[simp] theorem resetBlock_draws (s : State) : s.resetBlock.draws = s.draws := rfl

@[simp] theorem awaitReady_port (s : State) :
    s.awaitReady.port = .idle (Config.readyWait s.draws) := rfl
@[simp] theorem awaitReady_draws (s : State) : s.awaitReady.draws = s.draws + 1 := rfl
@[simp] theorem awaitReady_block (s : State) : s.awaitReady.block = s.block := rfl
@[simp] theorem awaitReady_commands (s : State) : s.awaitReady.commands = s.commands := rfl
@[simp] theorem awaitReady_index (s : State) : s.awaitReady.index = s.index := rfl
@[simp] theorem awaitReady_responses (s : State) : s.awaitReady.responses = s.responses := rfl
@[simp] theorem awaitReady_buffer (s : State) : s.awaitReady.buffer = s.buffer := rfl
@[simp] theorem awaitReady_faults (s : State) : s.awaitReady.faults = s.faults := rfl

/-! ## offer and boot -/

@[simp] theorem offer_commands (w : CmdWord) (s : State) :
    (s.offer w).commands = w :: s.commands.tail := rfl
@[simp] theorem offer_port (w : CmdWord) (s : State) : (s.offer w).port = .idle 0 := rfl
@[simp] theorem offer_block (w : CmdWord) (s : State) : (s.offer w).block = s.block := rfl
@[simp] theorem offer_index (w : CmdWord) (s : State) : (s.offer w).index = s.index := rfl

@[simp] theorem boot_commands (cs : List CmdWord) : (State.boot cs).commands = cs := rfl
@[simp] theorem boot_block (cs : List CmdWord) : (State.boot cs).block = Block.atReset := rfl
@[simp] theorem boot_port (cs : List CmdWord) : (State.boot cs).port = .idle 0 := rfl
@[simp] theorem boot_index (cs : List CmdWord) : (State.boot cs).index = 0 := rfl
@[simp] theorem boot_responses (cs : List CmdWord) : (State.boot cs).responses = [] := rfl
@[simp] theorem boot_buffer (cs : List CmdWord) : (State.boot cs).buffer = [] := rfl
@[simp] theorem boot_faults (cs : List CmdWord) : (State.boot cs).faults = [] := rfl

/-! ## takeResponse and delayResponse, with a response outstanding -/

/-- What the host's taking of a response writes. -/
theorem takeResponse_of_outstanding {s : State} {n : Nat} {r : Response}
    (h : s.port = .outstanding n r) :
    s.takeResponse =
      { s with
        port := .idle 0
        commands := s.commands.tail
        index := s.index + 1
        responses := s.responses ++ [r]
        buffer := s.buffer ++ appendedBytes s.commands.head? r
        draws := s.draws + 1 } := by
  simp [State.takeResponse, h]

/-- What delaying an outstanding response writes. -/
theorem delayResponse_of_outstanding {s : State} {n : Nat} {r : Response}
    (h : s.port = .outstanding n r) :
    s.delayResponse =
      { s with port := .outstanding (Config.responseWait s.draws) r, draws := s.draws + 1 } := by
  simp [State.delayResponse, h]

end Sys2Proof.Machine
end

