-- ==== Sys2Proof/Laws/Ops.lean ====
section
/-! SUPPORT. What each shared operation can do, said once: words and folds, the pending buffer, the Write
algorithm, the byte packing, one edge of the clock. -/

namespace Sys2Proof.Machine

/-! ## Words of a byte list -/

/-- The words of a list whose length is a multiple of 4 come first. -/
theorem wordsOf_append (xs ys : List Byte) (h : xs.length % 4 = 0) :
    wordsOf (xs ++ ys) = wordsOf xs ++ wordsOf ys := by
  induction xs using wordsOf.induct with
  | case1 b0 b1 b2 b3 rest ih =>
    have : rest.length % 4 = 0 := by simp at h; omega
    simp [wordsOf, ih this]
  | case2 l hl =>
    match l, hl, h with
    | [], _, _ => simp [wordsOf]
    | [_], _, h => simp at h
    | [_, _], _, h => simp at h
    | [_, _, _], _, h => simp at h
    | a :: b :: c :: d :: r, hl, _ => exact absurd rfl (hl a b c d r)

/-- Fewer than 4 bytes are no word. -/
theorem wordsOf_short (xs : List Byte) (h : xs.length < 4) : wordsOf xs = [] := by
  match xs, h with
  | [], _ => rfl
  | [_], _ => rfl
  | [_, _], _ => rfl
  | [_, _, _], _ => rfl
  | _ :: _ :: _ :: _ :: _, h => simp at h; omega

/-- Only the whole words of a list count. -/
theorem wordsOf_take_whole (xs : List Byte) :
    wordsOf (xs.take (4 * (xs.length / 4))) = wordsOf xs := by
  conv_rhs => rw [← List.take_append_drop (4 * (xs.length / 4)) xs]
  rw [wordsOf_append _ _ (by simp; omega), wordsOf_short (xs.drop _) (by simp; omega),
    List.append_nil]

/-- Folding is folding the first words and then the others. -/
theorem foldWords_append (S : Sums) (us vs : List Word) :
    foldWords S (us ++ vs) = foldWords (foldWords S us) vs := by
  simp [foldWords]

/-- The block fold on whole words (R102). -/
theorem foldBlock_whole (bytes : List Byte) (b : Block) (h : bytes.length % 4 = 0) :
    b.foldBlock bytes = .ok { b with sums := foldWords b.sums (wordsOf bytes) } := by
  simp [Block.foldBlock, h]

/-! ## The pending buffer -/

/-- pendingLen is at most 3 (R23). -/
theorem pendingLen_lt (b : Block) : b.pendingLen.toNat < 4 := b.pendingLen.isLt

/-- There are pendingLen valid bytes (R24). -/
@[simp] theorem validPending_length (b : Block) :
    b.validPending.length = b.pendingLen.toNat := by
  have := pendingLen_lt b
  simp [Block.validPending, Block.pendingBytes]; omega

/-- Up to 3 bytes stored are the valid bytes. -/
theorem validPending_storePending (P : List Byte) (b : Block) (h : P.length < 4) :
    (b.storePending P).validPending = P := by
  match P, h with
  | [], _ => rfl
  | [_], _ => rfl
  | [_, _], _ => rfl
  | [_, _, _], _ => rfl
  | _ :: _ :: _ :: _ :: _, h => simp at h; omega

/-- pendingLen after up to 3 bytes are stored. -/
theorem pendingLen_storePending (P : List Byte) (b : Block) (h : P.length < 4) :
    (b.storePending P).pendingLen.toNat = P.length := by
  simp [Block.storePending]; omega

/-! ## The Write algorithm -/

/-- The three steps of R95 in one: the whole words of T, the valid pending bytes and then the new ones, are
folded, and the rest of T is stored. It never faults. -/
theorem write_spec (bytes : List Byte) (b : Block) :
    b.write bytes =
      .ok (({ b with sums := foldWords b.sums (wordsOf (b.validPending ++ bytes)) } : Block).storePending
        ((b.validPending ++ bytes).drop (4 * ((b.validPending ++ bytes).length / 4)))) := by
  have hlt := pendingLen_lt b
  have hlen := validPending_length b
  generalize hP : b.validPending = P at *
  have hwhole : ∀ (xs : List Byte), (xs.take (4 * (xs.length / 4))).length % 4 = 0 := by
    intro xs; simp; omega
  by_cases h0 : P.length = 0
  · have : P = [] := List.length_eq_zero_iff.mp h0
    subst this
    simp [Block.write, Block.topUp, hP, foldBlock_whole _ _ (hwhole _), wordsOf_take_whole]
  · by_cases h4 : (P ++ bytes.take (min (4 - P.length) bytes.length)).length = 4
    · have hk : min (4 - P.length) bytes.length = 4 - P.length := by simp at h4; omega
      have hb : 4 - P.length ≤ bytes.length := by omega
      rw [hk] at h4
      have hT : P ++ bytes = (P ++ bytes.take (4 - P.length)) ++ bytes.drop (4 - P.length) := by
        simp
      have hdiv : (P ++ bytes).length / 4 = (bytes.drop (4 - P.length)).length / 4 + 1 := by
        simp; omega
      have hwords : wordsOf (P ++ bytes) =
          wordsOf (P ++ bytes.take (4 - P.length)) ++ wordsOf (bytes.drop (4 - P.length)) := by
        conv_lhs => rw [hT]
        exact wordsOf_append _ _ (by rw [h4])
      have hdrop : (P ++ bytes).drop (4 * ((P ++ bytes).length / 4)) =
          (bytes.drop (4 - P.length)).drop (4 * ((bytes.drop (4 - P.length)).length / 4)) := by
        rw [hdiv]
        conv_lhs => rw [hT]
        rw [List.drop_append, List.drop_eq_nil_of_le (by rw [h4]; omega), h4]
        simp only [List.nil_append]
        congr 1
      rw [hdrop, hwords, foldWords_append]
      simp only [Block.write, Block.topUp, hP, h0, if_false, hk, h4, if_true]
      rw [foldBlock_whole _ _ (by rw [h4])]
      simp only []
      rw [foldBlock_whole _ _ (hwhole _), wordsOf_take_whole]
      rfl
    · have hk : min (4 - P.length) bytes.length = bytes.length := by simp at h4; omega
      have hs : (P ++ bytes).length < 4 := by rw [hk] at h4; simp at h4 ⊢; omega
      have hq : (P ++ bytes).length / 4 = 0 := by omega
      rw [hk] at h4
      simp only [Block.write, Block.topUp, hP, h0, if_false, hk, h4]
      rw [wordsOf_short _ hs, hq]
      simp [foldBlock_whole, wordsOf, foldWords]

/-! ## The edge of the clock -/

/-- What an edge with rst = 0 does, by the transfer in progress. -/
theorem edge_of_rst (inp : PortIn) (s : State) (h : inp.rst = true) :
    s.edge inp = .next s.rstEdge := by
  simp [State.edge, h]

theorem edge_of_waiting_ready (inp : PortIn) (s : State) (n : Nat) (h : inp.rst = false)
    (hp : s.port = .idle (n + 1)) : s.edge inp = .next { s with port := .idle n } := by
  simp [State.edge, h, hp]

theorem edge_of_ready (inp : PortIn) (s : State) (h : inp.rst = false)
    (hp : s.port = .idle 0) :
    s.edge inp = if inp.cmdValid then s.accept inp.cmdWord else .next s := by
  simp [State.edge, h, hp]

theorem edge_of_waiting_response (inp : PortIn) (s : State) (n : Nat) (r : Response)
    (h : inp.rst = false) (hp : s.port = .outstanding (n + 1) r) :
    s.edge inp = .next { s with port := .outstanding n r } := by
  simp [State.edge, h, hp]

theorem edge_of_offered (inp : PortIn) (s : State) (r : Response) (h : inp.rst = false)
    (hp : s.port = .outstanding 0 r) :
    s.edge inp = if inp.rspReady then .next s.awaitReady else .next s := by
  simp [State.edge, h, hp]

end Sys2Proof.Machine
end

