-- ==== Sys2Proof/Laws/Exec.lean ====
section
/-! SUPPORT. Everything a decoded word can be, everything a command can do to the state, and everything a step
can do, each said once. -/

namespace Sys2Proof.Machine

/-- What a word decodes to, by its op (R72). -/
theorem decode_cases (w : CmdWord) :
    (opField w = 0b000 ∧ decode w = .reserved0) ∨
    (opField w = 0b001 ∧ decode w = .write (dataBytes w)) ∨
    (opField w = 0b010 ∧ decode w = .checksum) ∨ (opField w = 0b011 ∧ decode w = .append) ∨
    (opField w = 0b100 ∧ decode w = .reset) ∨ (opField w = 0b101 ∧ decode w = .csize) ∨
    (opField w = 0b110 ∧ decode w = .bsize) ∨ (opField w = 0b111 ∧ decode w = .reserved7) := by
  unfold decode
  generalize opField w = o
  rcases o with ⟨⟨o, ho⟩⟩
  have ho' : o < 8 := ho
  interval_cases o <;> simp

/-- A WRITE word has as many bytes as its count says (R67). -/
@[simp] theorem dataBytes_length (w : CmdWord) : (dataBytes w).length = byteCount w := by
  have := (lenm1Field w).isLt
  simp [dataBytes, byteCount]; omega

/-- The block after a command, as write_spec and R140 give it; the other commands leave it. -/
def blockAfter (i : Instr) (b : Block) : Block :=
  match i with
  | .write bytes =>
    ({ b with sums := foldWords b.sums (wordsOf (b.validPending ++ bytes)) } : Block).storePending
      ((b.validPending ++ bytes).drop (4 * ((b.validPending ++ bytes).length / 4)))
  | .reset => Block.atReset
  | .reserved0 => b
  | .checksum => b
  | .append => b
  | .csize => b
  | .bsize => b
  | .reserved7 => b

/-- Everything a command can do: it answers a next state, with the block of blockAfter, a legal response
outstanding, an entry in the fault record exactly when that response is ILLEGAL, and all else as it was. -/
theorem exec_spec (i : Instr) (s : State) : ∃ (t : State) (r : Response),
    exec i s = .next t ∧ t.block = blockAfter i s.block ∧ t.port = .outstanding 0 r ∧
      t.commands = s.commands ∧ t.index = s.index ∧ t.responses = s.responses ∧
      t.buffer = s.buffer ∧ t.draws = s.draws ∧ r.legal ∧
      t.faults =
        s.faults ++ (if r.status = statusIllegal then [.illegalCommand s.index] else []) ∧
      (r.status = statusIllegal ↔ i = .reserved0 ∨ i = .reserved7) := by
  cases i <;>
    simp [exec, execWrite, write_spec, execChecksum, execAppend, execReset, execCsize, execBsize,
      execReserved0, execReserved7, blockAfter, statusOk, statusIllegal, Response.legal]

/-- No command reads the port: from any transfer in progress it answers the same state. -/
theorem exec_ignores_port (i : Instr) (s : State) (p : Port) :
    exec i { s with port := p } = exec i s := by
  cases i <;>
    simp [exec, execWrite, write_spec, execChecksum, execAppend, execReset, execCsize, execBsize,
      execReserved0, execReserved7, State.respond, State.resetBlock, State.answerIllegal]

/-- The fault record of one more response. -/
theorem illegalIn_append (n : Nat) (rs : List Response) (r : Response) :
    illegalIn n (rs ++ [r]) =
      illegalIn n rs ++
        (if r.status = statusIllegal then [.illegalCommand (n + rs.length)] else []) := by
  induction rs generalizing n with
  | nil => simp [illegalIn]
  | cons a rs ih =>
    simp only [List.cons_append, illegalIn, ih]
    split <;> simp [Nat.add_assoc, Nat.add_comm 1]

/-- Quiet edges, as many as are left, bring an outstanding response to be offered. -/
theorem edges_until_response (k : Nat) (s : State) (r : Response)
    (h : s.port = .outstanding k r) :
    State.edges (List.replicate k quietEdge) s = .next { s with port := .outstanding 0 r } := by
  induction k generalizing s with
  | zero => cases s; simp_all [State.edges]
  | succ k ih =>
    simp [List.replicate_succ, State.edges, edge_of_waiting_response quietEdge s k r rfl h, ih]

/-- Quiet edges, as many as are left, bring cmd_ready to 1. -/
theorem edges_until_ready (k : Nat) (s : State) (h : s.port = .idle k) :
    State.edges (List.replicate k quietEdge) s = .next { s with port := .idle 0 } := by
  induction k generalizing s with
  | zero => cases s; simp_all [State.edges]
  | succ k ih =>
    simp [List.replicate_succ, State.edges, edge_of_waiting_ready quietEdge s k rfl h, ih]

/-- A step is a hold, the taking of a response, or one whole command. -/
theorem step_cases (s : State) :
    (∃ n, s.port = .idle n ∧ s.commands = [] ∧ step s = .next s) ∨
    (∃ n r, s.port = .outstanding n r ∧ step s = .next s.takeResponse) ∨
    (∃ n w rest t, s.port = .idle n ∧ s.commands = w :: rest ∧ s.accept w = .next t ∧
      step s = .next t.takeResponse) := by
  cases hp : s.port with
  | outstanding n r => exact .inr (.inl ⟨n, r, rfl, by simp [step, State.stepCommand, hp]⟩)
  | idle n =>
    cases hc : s.commands with
    | nil => exact .inl ⟨n, rfl, rfl, by simp [step, State.stepCommand, hp, State.nextCommand, hc]⟩
    | cons w rest =>
      obtain ⟨t, r, ht, -⟩ := exec_spec (decode w) s
      refine .inr (.inr ⟨n, w, rest, t.delayResponse, rfl, rfl, ?_, ?_⟩)
      · simp [State.accept, ht]
      · simp [step, State.stepCommand, hp, State.nextCommand, hc, State.accept, ht]

end Sys2Proof.Machine
end

