-- ==== Sys2Proof/Laws/PerInstr.lean ====
section
/-! SUPPORT. Families of lemmas over the constructors of Instr: EncodesOp, that the word of a command has the
command's op in its op field (spec/30_encoding.md R64, R70), whatever its operands. -/

namespace Sys2Proof.Laws

/-- The op field of a command's word is the command's op. -/
def EncodesOp.Statement (i : Instr) : Prop := opField (encode i) = i.op

theorem EncodesOp.reserved0 : EncodesOp.Statement .reserved0 := by
  unfold EncodesOp.Statement; decide

theorem EncodesOp.write (bytes : List Byte) : EncodesOp.Statement (.write bytes) := by
  unfold EncodesOp.Statement
  apply BitVec.eq_of_getLsbD_eq
  intro j hj
  simp [opField, encode, Instr.op, hj, show j < 8 by omega, show j < 40 by omega]

theorem EncodesOp.checksum : EncodesOp.Statement .checksum := by
  unfold EncodesOp.Statement; decide

theorem EncodesOp.append : EncodesOp.Statement .append := by
  unfold EncodesOp.Statement; decide

theorem EncodesOp.reset : EncodesOp.Statement .reset := by
  unfold EncodesOp.Statement; decide

theorem EncodesOp.csize : EncodesOp.Statement .csize := by
  unfold EncodesOp.Statement; decide

theorem EncodesOp.bsize : EncodesOp.Statement .bsize := by
  unfold EncodesOp.Statement; decide

theorem EncodesOp.reserved7 : EncodesOp.Statement .reserved7 := by
  unfold EncodesOp.Statement; decide

end Sys2Proof.Laws
end

