-- ==== Sys2Proof/Tests/Slice0.lean ====
section
/-! SUPPORT. The model's own tests: ill-formed terms refused, words written out from the encoding, the spec's
worked examples (spec/95_test_vectors.md) on one step or one operation, and a witness for the hypotheses of
every statement. -/

namespace Sys2Proof.Tests

open Sys2Proof Sys2Proof.Machine

/-- A fact about the next state, if there is one. -/
def after {α : Type} (o : Host.Outcome State Fault Refusal) (f : State → α) : Option α :=
  match o with
  | .next t => some (f t)
  | .fault _ => none
  | .refused _ => none

/-- The reset state with this block, ready for a command. -/
def withBlock (S : Sums) (pending : List Byte) : State :=
  { State.reset with block := ({ Block.atReset with sums := S } : Block).storePending pending }

/-- Four equal sums. -/
def all4 (x : Sum) : Sums := { s0 := x, s1 := x, s2 := x, s3 := x }

/-- The sums (1, 2, 3, 4) that the WR vectors start from. -/
def sums1234 : Sums := { s0 := 1, s1 := 2, s2 := 3, s3 := 4 }

/-- The response outstanding in a state. -/
def responseIn (s : State) : Option Response :=
  match s.port with
  | .outstanding _ r => some r
  | .idle _ => none

/-! ## Well-formedness -/

/-- R67: a count of 0 cannot be encoded. -/
theorem test_write_of_no_byte_is_ill_formed : (Instr.write []).wellFormed = false := by decide

/-- R67: no count greater than 4 can be encoded. -/
theorem test_write_of_five_bytes_is_ill_formed :
    (Instr.write [1, 2, 3, 4, 5]).wellFormed = false := by decide

/-- A WRITE of one and of four bytes are the ends of the range. -/
theorem test_write_of_one_and_four_bytes_is_well_formed :
    (Instr.write [0x6f]).wellFormed = true ∧ (Instr.write [1, 2, 3, 4]).wellFormed = true := by
  decide

/-! ## Decoding: words written out bit by bit from R64 to R70 -/

/-- DEC-1: op 000. -/
theorem test_decode_reserved0 : decode 0x0000000000 = .reserved0 := by decide

/-- Format W: lane3 0x04, lane2 0x03, lane1 0x02, lane0 0x01, rsvd 000, lenm1 11, op 001 (DEC-5). -/
theorem test_decode_write :
    decode 0b00000100_00000011_00000010_00000001_000_11_001 = .write [1, 2, 3, 4] := by decide

/-- WR-17: the lanes from the count on are ignored. -/
theorem test_decode_write_ignores_high_lanes : decode 0xffffff6f01 = .write [0x6f] := by decide

/-- WR-18: rsvd is ignored. -/
theorem test_decode_write_ignores_rsvd :
    decode 0x6c6c6568f9 = .write [0x68, 0x65, 0x6c, 0x6c] := by decide

/-- DEC-4: all ignored bits 1, op 010. -/
theorem test_decode_checksum : decode 0xfffffffffa = .checksum := by decide

/-- P1: op 011. -/
theorem test_decode_append : decode 0x0000000003 = .append := by decide

/-- DEC-8: op 100, lenm1 01 ignored. -/
theorem test_decode_reset : decode 0x000000000c = .reset := by decide

/-- CONST-1: op 101. -/
theorem test_decode_csize : decode 0x0000000005 = .csize := by decide

/-- CONST-2: op 110. -/
theorem test_decode_bsize : decode 0x0000000006 = .bsize := by decide

/-- DEC-3: op 111, an all-one word. -/
theorem test_decode_reserved7 : decode 0xffffffffff = .reserved7 := by decide

/-- R64: more than 40 bits, or a number that does not fit, is no command word, and is rejected by name. -/
theorem test_decode_rejects_by_name :
    decodeBits 41 2 = .error (.tooManyBits 41) ∧ decodeBits 2 4 = .error (.tooLarge 2 4) ∧
      decodeTableWord 40 0x1234567809 = some (.write [0x78, 0x56]) := by decide

/-- R76: `WRITE "hell"` is 0x6c6c656819 and `WRITE 1,2,3` is 0x0003020111. -/
theorem test_encode_write :
    encode (.write [0x68, 0x65, 0x6c, 0x6c]) = 0x6c6c656819 ∧
      encode (.write [1, 2, 3]) = 0x0003020111 := by decide

/-- R76: the text `WRITE "o" ; c` assembles to the word of P1 line 2. -/
theorem test_assemble_string :
    assembleText [['W', 'R', 'I', 'T', 'E', ' ', '"', 'o', '"', ' ', ';', ' ', 'c']] =
      some [0x0000006f01] := by decide

/-- R76, R77, R78: hex and decimal bytes, WRITES split into beats, NEW, a raw word. -/
theorem test_assemble_bytes :
    assembleText
      [['W', 'R', 'I', 'T', 'E', 'S', ' ', '1', ',', '2', ',', '3', ',', '4', ',', '0', 'x', '6', 'f'],
       ['N', 'E', 'W'], ['.', 'w', 'o', 'r', 'd', ' ', '0', 'x', '0', '0', '0', '0', '0', '0', '0', '0', '0', '7']] =
      some [0x0403020119, 0x0000006f01, 0x0000000004, 0x0000000007] := by decide

/-- Log entry 15: an empty string in a list adds no byte, and alone makes no WRITE. -/
theorem test_assemble_empty_string :
    parseLine ['W', 'R', 'I', 'T', 'E', ' ', '"', '"', ',', '1'] = some [.command (.write [1])] ∧
      parseLine ['W', 'R', 'I', 'T', 'E', ' ', '"', '"'] = none := by decide

/-! ## The fold -/

/-- FOLD-6: each stage adds the new value of the stage below. -/
theorem test_fold_stage_order :
    foldPure sums1234 5 = { s0 := 6, s1 := 8, s2 := 11, s3 := 15 } := by decide

/-- FOLD-5: a wrap at every stage, the word unsigned. -/
theorem test_fold_wraps :
    foldPure (all4 0xffffffffffffffff) 0xffffffff =
      { s0 := 0x00000000fffffffe, s1 := 0x00000000fffffffd, s2 := 0x00000000fffffffc,
        s3 := 0x00000000fffffffb } := by decide

/-- TREE-1: the closed form on three words from zero. -/
theorem test_closed_form :
    foldClosed (all4 0) [0x04030201, 0x08070605, 0x08060402] =
      { s0 := 0x14100c08, s1 := 0x241d160f, s2 := 0x382d2217, s3 := 0x50403020 } := by decide

/-! ## The commands, one each or two -/

/-- WR-8: p = 1, c = 4: one fold and one byte left. -/
theorem test_write_completes_a_word :
    after (exec (.write [0xb0, 0xb1, 0xb2, 0xb3]) (withBlock sums1234 [0xa0]))
        (fun t => (t.block.sums, t.block.validPending, responseIn t)) =
      some ({ s0 := 0xb2b1b0a1, s1 := 0xb2b1b0a3, s2 := 0xb2b1b0a6, s3 := 0xb2b1b0aa }, [0xb3],
        some { status := 0b00, data := 4 }) := by decide

/-- WR-6: p = 1, c = 2: no fold, the bytes wait. -/
theorem test_write_tops_up_without_a_fold :
    after (exec (.write [0xb0, 0xb1]) (withBlock sums1234 [0xa0]))
        (fun t => (t.block.sums, t.block.validPending)) =
      some (sums1234, [0xa0, 0xb0, 0xb1]) := by decide

/-- P1 line 3 (EX-3): "hell" folded, "o" pending. -/
theorem test_checksum_pads_a_copy :
    after (exec .checksum (withBlock (all4 0x6c6c6568) [0x6f]))
        (fun t => (responseIn t, t.block.sums)) =
      some (some ⟨0b00,
        0x00000001b1b1960f00000001454530a700000000d8d8cb3f000000006c6c65d7⟩,
        all4 0x6c6c6568) := by decide

/-- FIN-3: pending[1] = 0x22 and pending[2] = 0x33 are stale and masked. -/
theorem test_checksum_masks_stale_bytes :
    ({ sums := all4 0x44332211, pending0 := 0x55, pending1 := 0x22, pending2 := 0x33,
       pendingLen := 1 } : Block).finalize =
      { s0 := 0x44332266, s1 := 0x88664477, s2 := 0xcc996688, s3 := 0x110cc8899 } := by decide

/-- APP-1: the response of APPEND after `WRITE 1,2,3,4`. -/
theorem test_append_response :
    after (exec .append (withBlock (all4 0x04030201) [])) responseIn =
      some (some ⟨0b00,
        0x0000000004030201000000000403020100000000040302010000000004030201⟩) := by decide

/-- P1 line 4, as a step: the host's buffer gets the 32 bytes. -/
theorem test_append_extends_the_buffer :
    after (step ((withBlock (all4 0x6c6c6568) [0x6f]).withFetchWord 40 3)) State.buffer =
      some [0xd7, 0x65, 0x6c, 0x6c, 0, 0, 0, 0, 0x3f, 0xcb, 0xd8, 0xd8, 0, 0, 0, 0,
        0xa7, 0x30, 0x45, 0x45, 1, 0, 0, 0, 0x0f, 0x96, 0xb1, 0xb1, 1, 0, 0, 0] := by decide

/-- RST-1. -/
theorem test_reset_clears :
    after (exec .reset (withBlock (all4 0x6c6c6568) [0x6f]))
        (fun t => (t.block, responseIn t)) =
      some (Block.atReset, some { status := 0b00, data := 0 }) := by decide

/-- CONST-1. -/
theorem test_csize :
    after (exec .csize (withBlock sums1234 [0xa0])) responseIn =
      some (some { status := 0b00, data := 32 }) := by decide

/-- CONST-2. -/
theorem test_bsize :
    after (exec .bsize (withBlock sums1234 [0xa0])) responseIn =
      some (some { status := 0b00, data := 4 }) := by decide

/-- P4 line 2: op 111 in the middle of a word, as the command of index 1. -/
theorem test_reserved7_in_the_middle :
    after (exec .reserved7 { withBlock (all4 0) [0x61, 0x62] with index := 1 })
        (fun t => (t.block.validPending, responseIn t, t.faults)) =
      some ([0x61, 0x62], some { status := 0b01, data := 0 }, [.illegalCommand 1]) := by decide

/-- DEC-1: op 000. -/
theorem test_reserved0 :
    after (exec .reserved0 State.reset) (fun t => (t.block, responseIn t, t.faults)) =
      some (Block.atReset, some { status := 0b01, data := 0 }, [.illegalCommand 0]) := by decide

/-! ## Step and ports -/

/-- P1 line 1, as a step from the reset state: the response is recorded and the position is 1. -/
theorem test_step_runs_the_word :
    after (step (State.boot [0x6c6c656819, 0x0000006f01]))
        (fun t => (t.block.sums, t.index, t.commands, t.responses)) =
      some (all4 0x6c6c6568, 1, [0x0000006f01], [{ status := 0b00, data := 4 }]) := by decide

/-- R182: rst abandons an outstanding command without a response. -/
theorem test_rst_abandons :
    after (({ withBlock sums1234 [0xa0] with port := .outstanding 0 { status := 0b00, data := 4 } } :
        State).edge { rst := true, cmdValid := true, cmdWord := 0x19, rspReady := true })
        (fun t => (t.block, responseIn t, t.responses)) =
      some (Block.atReset, none, []) := by decide

/-- R62: with a response outstanding a command offered is not accepted. -/
theorem test_no_second_command :
    after (({ withBlock sums1234 [] with port := .outstanding 0 { status := 0b00, data := 4 } } :
        State).edge (offerEdge 0x0000000004))
        (fun t => (t.block.sums, responseIn t)) =
      some (sums1234, some { status := 0b00, data := 4 }) := by decide

/-! ## Witnesses: a state and operands that meet the hypotheses of each statement together -/

/-- EncodeThenDecodeGivesTheCommand, at both ends of the count. -/
theorem test_witness_well_formed_commands :
    (Instr.write [0xff]).wellFormed = true ∧ (Instr.write [1, 2, 3, 0x80]).wellFormed = true ∧
      Instr.reserved7.wellFormed = true := by decide

/-- IgnoredBitsChangeNothing: WR-17 and WR-18 against the words with the ignored bits 0, and two words of
format N. -/
theorem test_witness_same_used_bits :
    sameUsedBits 0xffffff6f01 0x0000006f01 ∧ sameUsedBits 0x6c6c6568f9 0x6c6c656819 ∧
      sameUsedBits 0xfffffffffa 0x0000000002 := by decide

/-- WriteWordCarriesItsLanes and WriteNeverFails, at counts 1 and 4. -/
theorem test_witness_write_words :
    opField 0x0000000001 = 0b001 ∧ byteCount 0x0000000001 = 1 ∧
      opField 0xffffffff19 = 0b001 ∧ byteCount 0xffffffff19 = 4 := by decide

/-- SerializationIsLittleEndianInWordOrder, AppendReturnsTheSerializedBytes: the last byte. -/
theorem test_witness_last_serialized_byte :
    7 < 8 ∧ 31 < 32 ∧
      (serialize { s0 := 0, s1 := 0, s2 := 0, s3 := 0x8000000000000000 })[31]? = some 0x80 := by
  decide

/-- BlockFoldFaultsOnPartialBlocks, clause 1: 3 bytes. -/
theorem test_witness_partial_block :
    [1, 2, (3 : Byte)].length % 4 ≠ 0 ∧
      Block.atReset.foldBlock [1, 2, 3] = .error (.contractViolation 3) := by decide

/-- BlockFoldFaultsOnPartialBlocks, clause 2: no byte, and 4. -/
theorem test_witness_whole_block :
    ([] : List Byte).length % 4 = 0 ∧ [1, 2, 3, (4 : Byte)].length % 4 = 0 ∧
      Block.atReset.foldBlock [] = .ok Block.atReset := by decide

/-- WriteIsTheAssemblyDatapath, at 1 and at 4 bytes. -/
theorem test_witness_beats :
    1 ≤ [(0 : Byte)].length ∧ [(0 : Byte)].length ≤ 4 ∧ 1 ≤ [0, 1, 2, (3 : Byte)].length ∧
      [0, 1, 2, (3 : Byte)].length ≤ 4 := by decide

/-- ChunkingDoesNotMatter: P2's split against one write. -/
theorem test_witness_chunks :
    ([[1, 2, 3], [4, 5, 6, 7], [8, 2], [4, 6, 8]] : List (List Byte)).flatten =
      ([[1, 2, 3, 4, 5, 6, 7, 8, 2, 4, 6, 8]] : List (List Byte)).flatten := by decide

/-- WritesExpandsIntoBeats: the clause about each of its commands has commands to speak of. -/
theorem test_witness_writes :
    writesCommands [1, 2, 3, 4, 5] = [.write [1, 2, 3, 4], .write [5]] ∧
      beats [1, 2, 3, 4] = [[1, 2, 3, 4]] ∧ beats [] = [] := by decide

/-- AlignedFoldsNoZeroWord, clause 1: an aligned block with non-zero sums. -/
theorem test_witness_aligned :
    (withBlock sums1234 []).block.logicalState = .aligned ∧
      (withBlock sums1234 []).block.finalize = sums1234 := by decide

/-- AlignedFoldsNoZeroWord, clause 2: a non-zero s0. -/
theorem test_witness_nonzero_s0 :
    sums1234.s0 ≠ 0 ∧ foldPure sums1234 0 = { s0 := 1, s1 := 3, s2 := 6, s3 := 10 } := by decide

/-- AppendTwiceAppendsTheSameBytes: two APPEND words on the list of a ready block. -/
theorem test_witness_two_appends :
    (State.boot [0x0000000003, 0xfffffffffb]).port = .idle 0 ∧
      (State.boot [0x0000000003, 0xfffffffffb]).commands = 0x0000000003 :: 0xfffffffffb :: [] ∧
      opField 0x0000000003 = 0b011 ∧ opField 0xfffffffffb = 0b011 := by decide

/-- ReadsDoNotDisturbLaterCommands, OnlyWriteAndResetChangeTheBlock and the inner clause of
OnlyWriteIsNotIdempotent: CHECKSUM is neither WRITE nor RESET. -/
theorem test_witness_neither_write_nor_reset :
    (∀ bytes, Instr.checksum ≠ .write bytes) ∧ Instr.checksum ≠ .reset := by
  constructor
  · intro bytes h; cases h
  · decide

/-- OnlyWriteAndResetChangeTheBlock, clause 2: CHECKSUM accepted by a ready block, and an edge at which nothing
is offered. -/
theorem test_witness_edge_without_write_or_reset :
    (offerEdge 0x0000000002).rst = false ∧ (offerEdge 0x0000000002).cmdValid = true ∧
      State.reset.cmdReady false = true ∧ decode (offerEdge 0x0000000002).cmdWord = .checksum ∧
      quietEdge.rst = false ∧ quietEdge.cmdValid = false := by decide

/-- OnlyWriteIsNotIdempotent: RESET is not WRITE. -/
theorem test_witness_reset_is_not_write : ∀ bytes, Instr.reset ≠ .write bytes := by
  intro bytes h; cases h

/-- PaddingLaw: FIN-8's stream. -/
theorem test_witness_unaligned_stream :
    [0x61, 0x62, 0x63, 0x64, 0x65, (0x66 : Byte)].length % 4 ≠ 0 := by decide

/-- ReservedOpsAreAnsweredIllegal, both clauses. -/
theorem test_witness_reserved :
    (Instr.reserved0 = .reserved0 ∨ Instr.reserved0 = .reserved7) ∧
      (Instr.reserved7 = .reserved0 ∨ Instr.reserved7 = .reserved7) := by decide

/-- LegalOpsCompleteWithOk, at ops 001 and 110. -/
theorem test_witness_legal_ops :
    opField 0x0000000001 ≠ 0b000 ∧ opField 0x0000000001 ≠ 0b111 ∧
      opField 0x0000000006 ≠ 0b000 ∧ opField 0x0000000006 ≠ 0b111 := by decide

/-- CommandsLeaveTheHostAlone: the inner clause about the fault record. -/
theorem test_witness_not_reserved :
    Instr.csize ≠ .reserved0 ∧ Instr.csize ≠ .reserved7 := by decide

/-- StalePendingBytesAreUnobservable: FIN-3's block and the same with the stale bytes 0. -/
theorem test_witness_stale_bytes :
    Block.sameValid
        { sums := all4 0x44332211, pending0 := 0x55, pending1 := 0x22, pending2 := 0x33,
          pendingLen := 1 }
        { sums := all4 0x44332211, pending0 := 0x55, pending1 := 0, pending2 := 0,
          pendingLen := 1 } := by decide

/-- StepRunsTheDecodedCommand: a ready block and a waiting one, each with a command. -/
theorem test_witness_ready_with_a_command :
    (State.boot [0x0000000005]).port = .idle 0 ∧
      (State.boot [0x0000000005]).commands = 0x0000000005 :: [] ∧
      ({ State.boot [0x0000000005] with port := .idle 3 } : State).port = .idle 3 := by decide

/-- StepHoldsOrTakesTheResponse, clause 1: the reset state has no command. -/
theorem test_witness_no_command :
    State.reset.port = .idle 0 ∧ State.reset.commands = [] := by decide

/-- StepHoldsOrTakesTheResponse, clause 2, and OneCommandOutstandingAndItsResponseStable: a response offered
and one still to come, the host ready and not. -/
theorem test_witness_outstanding :
    (State.reset.respond 0b00 4).port = .outstanding 0 { status := 0b00, data := 4 } ∧
      ({ State.reset with port := .outstanding 2 { status := 0b01, data := 0 } } : State).port =
        .outstanding 2 { status := 0b01, data := 0 } ∧
      takeEdge.rst = false ∧ takeEdge.rspReady = true ∧ quietEdge.rst = false ∧
      quietEdge.rspReady = false := by decide

/-- StepKeepsTheRunRecord: a state with a recorded illegal command meets the invariant, and its step answers
a next state. -/
theorem test_witness_run_record :
    ({ State.boot [0x0000000002] with
        index := 1
        responses := [{ status := 0b01, data := 0 }]
        faults := [.illegalCommand 0] } : State).runRecordOk ∧
      (after (step (State.boot [0x0000000002])) State.index) = some 1 := by decide

/-- RunPerformsTheWholeList: a list of well-formed commands. -/
theorem test_witness_well_formed_list :
    ∀ i ∈ [Instr.write [1, 2, 3], .append, .reserved0, .reset], i.wellFormed = true := by decide

/-- EveryResetEventClearsTheBlock and NoResponseBeforeACommand: an edge with rst = 1, one without a command,
and a block that is not ready. -/
theorem test_witness_no_acceptance :
    ({ quietEdge with rst := true } : PortIn).rst = true ∧ quietEdge.cmdValid = false ∧
      ({ State.reset with port := .idle 1 } : State).cmdReady false = false ∧
      State.reset.port = .idle 0 := by decide

/-- AcceptedCommandsAreAnswered, clause 1: a command offered to a ready block. -/
theorem test_witness_offer :
    (offerEdge 0x0000000007).rst = false ∧ (offerEdge 0x0000000007).cmdValid = true ∧
      State.reset.cmdReady false = true := by decide

/-- AcceptedCommandsAreAnswered, clause 2: a block that needs 2 more edges. -/
theorem test_witness_not_yet_ready :
    ({ State.reset with port := .idle 2 } : State).port = .idle 2 := by decide

/-- PortEdgesRefineTheStep: a ready block with a command, and one still waiting. -/
theorem test_witness_ready_for_the_ports :
    (State.boot [0x6c6c656819]).port = .idle 0 ∧
      ({ State.boot [0x6c6c656819] with port := .idle 2 } : State).port = .idle 2 ∧
      (State.boot [0x6c6c656819]).commands = 0x6c6c656819 :: [] := by decide

/-- InstancesShareNothing: the second of two instances, one that is not there, and another than the one that
steps. -/
theorem test_witness_two_instances :
    (1 : Nat) ≠ 0 ∧ ([State.reset, State.boot [0x0000000005]] : List State)[1]? =
        some (State.boot [0x0000000005]) ∧
      ([State.reset, State.boot [0x0000000005]] : List State)[2]? = none := by decide

/-- ReservedWordsChangeNoRegister: a word with op 000 and one with op 111 (DEC-1, DEC-3). -/
theorem test_witness_reserved_words :
    opField 0x0000000000 = 0b000 ∧ opField 0xffffffffff = 0b111 := by decide

/-- EveryCommandKeepsTheStream: P1's state after its line 2 holds the stream "hello", ready with a command. -/
theorem test_witness_block_holding_a_stream :
    (withBlock (all4 0x6c6c6568) [0x6f]).block.holdsStream [0x68, 0x65, 0x6c, 0x6c, 0x6f] ∧
      ((withBlock (all4 0x6c6c6568) [0x6f]).offer 0x0000000002).block.holdsStream
        [0x68, 0x65, 0x6c, 0x6c, 0x6f] ∧
      ((withBlock (all4 0x6c6c6568) [0x6f]).offer 0x0000000002).port = .idle 0 ∧
      ((withBlock (all4 0x6c6c6568) [0x6f]).offer 0x0000000002).commands =
        0x0000000002 :: [] := by decide

end Sys2Proof.Tests
end

/-! PROOFS. Byte order (spec/20_memory.md R42, R45): a word as the number of its bytes, the serialization word
by word. -/

namespace Sys2Proof.Machine

/-- Four base-256 digits stay below 2^32, so that le32 loses nothing (R42). -/
theorem le32_toNat (b0 b1 b2 b3 : Byte) :
    (le32 b0 b1 b2 b3).toNat =
      b0.toNat + 2 ^ 8 * b1.toNat + 2 ^ 16 * b2.toNat + 2 ^ 24 * b3.toNat := by
  have h0 := b0.isLt
  have h1 := b1.isLt
  have h2 := b2.isLt
  have h3 := b3.isLt
  rw [le32, BitVec.toNat_ofNat, Nat.mod_eq_of_lt (by omega)]

/-- Settles O7: le32 is built from that number, which does not wrap. -/
theorem wordIsLittleEndian : Obligations.WordIsLittleEndian := le32_toNat

@[simp] theorem le64bytes_length (x : Sum) : (le64bytes x).length = 8 := by simp [le64bytes]

theorem le64bytes_getElem? (x : Sum) {k : Nat} (hk : k < 8) :
    (le64bytes x)[k]? = some (x.extractLsb' (8 * k) 8) := by
  simp [le64bytes, hk]

/-- Byte 8w + k of any row of little-endian 64-bit words is byte k of word w. -/
theorem flatMap_le64bytes_getElem? (xs : List Sum) (w : Nat) {k : Nat} (hk : k < 8) :
    (xs.flatMap le64bytes)[8 * w + k]? = xs[w]?.map fun x => x.extractLsb' (8 * k) 8 := by
  induction xs generalizing w with
  | nil => simp
  | cons x xs ih =>
    rw [List.flatMap_cons]
    cases w with
    | zero =>
      rw [List.getElem?_append_left (by simpa using hk)]
      simp [le64bytes_getElem? x hk]
    | succ w =>
      have hw : 8 * (w + 1) + k - 8 = 8 * w + k := by omega
      rw [List.getElem?_append_right (by simp; omega), le64bytes_length, hw, ih]
      simp

/-- The word order of R45. -/
theorem serialize_eq_flatMap (F : Sums) :
    serialize F = [F.s0, F.s1, F.s2, F.s3].flatMap le64bytes := by
  simp [serialize]

@[simp] theorem serialize_length (F : Sums) : (serialize F).length = 32 := by simp [serialize]

/-- Settles O8, by the lemma about any row of words at its words 0 to 3. -/
theorem serializationIsLittleEndianInWordOrder :
    Obligations.SerializationIsLittleEndianInWordOrder := by
  intro F
  have hbyte (w : Nat) {k : Nat} (hk : k < 8) :=
    flatMap_le64bytes_getElem? [F.s0, F.s1, F.s2, F.s3] w hk
  rw [← serialize_eq_flatMap] at hbyte
  exact ⟨serialize_length F, fun k hk =>
    ⟨by simpa using hbyte 0 hk, hbyte 1 hk, hbyte 2 hk, hbyte 3 hk⟩⟩

end Sys2Proof.Machine

/-! PROOFS. Repeating a command (spec/20_memory.md R52). -/

namespace Sys2Proof.Machine

/-- The response to a command, from the block alone: R98, R124, R127, R140, R142, R143, R162. -/
def responseTo (i : Instr) (b : Block) : Response :=
  match i with
  | .write bytes => { status := statusOk, data := BitVec.ofNat 256 bytes.length }
  | .checksum => { status := statusOk, data := checksumData b.finalize }
  | .append => { status := statusOk, data := packBytes (serialize b.finalize) }
  | .reset => { status := statusOk, data := 0 }
  | .csize => { status := statusOk, data := BitVec.ofNat 256 checksumSize }
  | .bsize => { status := statusOk, data := BitVec.ofNat 256 blockSize }
  | .reserved0 => { status := statusIllegal, data := 0 }
  | .reserved7 => { status := statusIllegal, data := 0 }

/-- WRITE of any bytes answers the count of them (R98). -/
theorem exec_write (bytes : List Byte) (s : State) :
    exec (.write bytes) s =
      .next ({ s with block := blockAfter (.write bytes) s.block }.respond statusOk
        (BitVec.ofNat 256 bytes.length)) := by
  simp only [exec, execWrite, write_spec, blockAfter]

/-- The block and the response that a command leaves are functions of the command and the block it meets. -/
theorem exec_block_port (i : Instr) (s : State) : ∃ t : State,
    exec i s = .next t ∧ t.block = blockAfter i s.block ∧
      t.port = .outstanding 0 (responseTo i s.block) := by
  cases i with
  | write bytes => exact ⟨_, exec_write bytes s, rfl, rfl⟩
  | reserved0 => exact ⟨_, rfl, rfl, rfl⟩
  | checksum => exact ⟨_, rfl, rfl, rfl⟩
  | append => exact ⟨_, rfl, rfl, rfl⟩
  | reset => exact ⟨_, rfl, rfl, rfl⟩
  | csize => exact ⟨_, rfl, rfl, rfl⟩
  | bsize => exact ⟨_, rfl, rfl, rfl⟩
  | reserved7 => exact ⟨_, rfl, rfl, rfl⟩

/-- R27: no command but WRITE and RESET changes the block. -/
theorem blockAfter_of_not_write_reset {i : Instr} (b : Block) (hw : ∀ bytes, i ≠ .write bytes)
    (hr : i ≠ .reset) : blockAfter i b = b := by
  cases i with
  | write bytes => exact absurd rfl (hw bytes)
  | reset => exact absurd rfl hr
  | reserved0 | checksum | append | csize | bsize | reserved7 => rfl

/-- A command other than WRITE finds the block it leaves as good as the one it met: RESET ignores it, and
the others have left it alone. -/
theorem repeat_of_not_write {i : Instr} (b : Block) (hw : ∀ bytes, i ≠ .write bytes) :
    blockAfter i (blockAfter i b) = blockAfter i b ∧
      responseTo i (blockAfter i b) = responseTo i b := by
  by_cases hr : i = .reset
  · subst hr
    exact ⟨rfl, rfl⟩
  · simp only [blockAfter_of_not_write_reset _ hw hr, and_self]

/-- Settles O38. A repeated command meets the block it left, which decides what it does again; a WRITE of
"hell" on the reset block folds a non-zero word each time. -/
theorem onlyWriteIsNotIdempotent : Obligations.OnlyWriteIsNotIdempotent := by
  constructor
  · intro i s hw
    obtain ⟨t, ht, htb, htp⟩ := exec_block_port i s
    obtain ⟨u, hu, hub, hup⟩ := exec_block_port i t
    obtain ⟨hblock, hresponse⟩ := repeat_of_not_write s.block hw
    refine ⟨t, u, ht, hu, ?_, ?_, fun hr => ?_⟩
    · rw [hup, htp, htb, hresponse]
    · rw [hub, htb, hblock]
    · rw [htb, blockAfter_of_not_write_reset _ hw hr]
  · have write_hell := exec_block_port (.write [0x68, 0x65, 0x6c, 0x6c])
    obtain ⟨t, ht, htb, -⟩ := write_hell State.reset
    obtain ⟨u, hu, hub, -⟩ := write_hell t
    refine ⟨_, State.reset, t, u, ?_, ht, hu, ?_, ?_⟩
    · rfl
    · rw [htb]
      decide
    · rw [hub, htb]
      decide

end Sys2Proof.Machine

/-! PROOFS. The bytes of a WRITE word, and the bits that a command ignores (spec/30_encoding.md R68, R69). -/

namespace Sys2Proof.Machine

/-- R68 at every count: the lanes from 0 up to the count, in order. -/
theorem dataBytes_eq_map_lane (w : CmdWord) :
    dataBytes w = (List.range (byteCount w)).map (lane w) := by
  have hcount : byteCount w ≤ 4 := (lenm1Field w).isLt
  calc dataBytes w = ((List.range 4).map (lane w)).take (byteCount w) := rfl
    _ = (List.range (byteCount w)).map (lane w) := by
      rw [← List.map_take, List.take_range, min_eq_left hcount]

theorem dataBytes_getElem? (w : CmdWord) {j : Nat} (hj : j < byteCount w) :
    (dataBytes w)[j]? = some (lane w j) := by
  simp [dataBytes_eq_map_lane, hj]

theorem decode_of_op_write {w : CmdWord} (h : opField w = 0b001) :
    decode w = .write (dataBytes w) := by
  simpa [h] using decode_cases w

/-- Settles O5: the lanes are those raw extracts, and lenm1 gives the count. -/
theorem writeWordCarriesItsLanes : Obligations.WriteWordCarriesItsLanes := by
  intro w hop
  refine ⟨dataBytes w, decode_of_op_write hop, dataBytes_length w, fun j hj => ?_⟩
  rw [dataBytes_length] at hj
  exact dataBytes_getElem? w hj

/-- Of a word's fields the decoder reads op, and the data only when op is that of WRITE. -/
theorem decode_congr {w w' : CmdWord} (hop : opField w = opField w')
    (hdata : opField w = 0b001 → dataBytes w = dataBytes w') : decode w = decode w' := by
  by_cases hwrite : opField w = 0b001
  · rw [decode_of_op_write hwrite, decode_of_op_write (hop ▸ hwrite), hdata hwrite]
  · unfold decode
    rw [← hop]
    split
    case h_2 heq => exact absurd (BitVec.toFin_inj.mp heq) hwrite
    all_goals rfl

theorem dataBytes_congr {w w' : CmdWord} (hlen : lenm1Field w = lenm1Field w')
    (hlanes : ∀ j < byteCount w, lane w j = lane w' j) : dataBytes w = dataBytes w' := by
  have hcount : byteCount w = byteCount w' := by rw [byteCount, hlen, byteCount]
  rw [dataBytes_eq_map_lane, dataBytes_eq_map_lane, ← hcount]
  exact List.map_congr_left fun j hj => hlanes j (List.mem_range.mp hj)

theorem decode_eq_of_sameUsedBits {w w' : CmdWord} (h : sameUsedBits w w') :
    decode w = decode w' := by
  obtain ⟨hop, hwrite⟩ := h
  refine decode_congr hop fun hop1 => ?_
  obtain ⟨hlen, hlanes⟩ := hwrite hop1
  exact dataBytes_congr hlen hlanes

/-- What the block does with a word depends on the decoded command alone. -/
theorem accept_congr {w w' : CmdWord} (h : decode w = decode w') (s : State) :
    s.accept w = s.accept w' := by
  simp only [State.accept, h]

/-- Settles O3: the used bits fix the decoded command, and the command fixes the outcome. -/
theorem ignoredBitsChangeNothing : Obligations.IgnoredBitsChangeNothing := by
  intro w w' h
  have hdecode := decode_eq_of_sameUsedBits h
  exact ⟨hdecode, accept_congr hdecode⟩

end Sys2Proof.Machine

/-! PROOFS. The fold of one word, and the answer to a WRITE word (spec/40_accumulate.md R90, R99). -/

namespace Sys2Proof.Machine

/-- R102 at a single word: the block fold is one pass of the adder chain over the sums. -/
theorem foldBlock_word (b : Block) (b0 b1 b2 b3 : Byte) :
    b.foldBlock [b0, b1, b2, b3] = .ok { b with sums := foldPure b.sums (le32 b0 b1 b2 b3) } :=
  foldBlock_whole [b0, b1, b2, b3] b (by simp)

/-- Settles O9: the four stages are foldPure, written out. -/
theorem foldWritesTheFourStages : Obligations.FoldWritesTheFourStages := foldBlock_word

/-- Acceptance performs the decoded command and delays its response, whose content the delay leaves alone
(R63, R191). -/
theorem accept_block_port (w : CmdWord) (s : State) : ∃ (t : State) (n : Nat),
    s.accept w = .next t ∧ t.block = blockAfter (decode w) s.block ∧
      t.port = .outstanding n (responseTo (decode w) s.block) := by
  obtain ⟨t, ht, hblock, hport⟩ := exec_block_port (decode w) s
  have hdelay := delayResponse_of_outstanding hport
  refine ⟨t.delayResponse, Config.responseWait t.draws, ?_, ?_, ?_⟩
  · simp only [State.accept, ht]
  · rw [hdelay, hblock]
  · rw [hdelay]

/-- R98 for a word: the answer is OK and the count, whatever the block holds. -/
theorem responseTo_of_op_write {w : CmdWord} (hop : opField w = 0b001) (b : Block) :
    responseTo (decode w) b = { status := statusOk, data := BitVec.ofNat 256 (byteCount w) } := by
  rw [decode_of_op_write hop, responseTo, dataBytes_length]

/-- Settles O15: every word is accepted and answered, and a WRITE word with its count, which is at most 4 and
so fits in the response's data. -/
theorem writeNeverFails : Obligations.WriteNeverFails := by
  intro w s hop
  obtain ⟨t, n, haccept, -, hport⟩ := accept_block_port w s
  rw [responseTo_of_op_write hop] at hport
  refine ⟨t, n, _, haccept, hport, rfl, ?_⟩
  have hcount : byteCount w ≤ 4 := (lenm1Field w).isLt
  calc (BitVec.ofNat 256 (byteCount w)).toNat
    _ = byteCount w := by rw [BitVec.toNat_ofNat, Nat.mod_eq_of_lt (by omega)]
    _ = (lenm1Field w).toNat + 1 := rfl

end Sys2Proof.Machine

/-! PROOFS. Little-endian byte lists as base-256 numbers, and the padded word (spec/41_finalize.md R120, R121,
R127). -/

namespace Sys2Proof.Machine

/-- R127's sum over B[j] * 2^(8j) is Mathlib's number of a list of digits, in base 2^8. -/
theorem ofBytesLE_eq_ofDigits (bytes : List Byte) :
    ofBytesLE bytes = Nat.ofDigits (2 ^ 8) (bytes.map BitVec.toNat) := by
  induction bytes with
  | nil => rfl
  | cons b bs ih => rw [List.map_cons, Nat.ofDigits_cons, ← ih, ofBytesLE]

theorem ofBytesLE_append (xs ys : List Byte) :
    ofBytesLE (xs ++ ys) = ofBytesLE xs + (2 ^ 8) ^ xs.length * ofBytesLE ys := by
  simp only [ofBytesLE_eq_ofDigits, List.map_append, Nat.ofDigits_append, List.length_map]

theorem ofBytesLE_lt (bytes : List Byte) : ofBytesLE bytes < 2 ^ (8 * bytes.length) := by
  have hdigit : ∀ d ∈ bytes.map BitVec.toNat, d < 2 ^ 8 := by
    intro d hd
    obtain ⟨b, -, rfl⟩ := List.mem_map.mp hd
    exact b.isLt
  rw [pow_mul, ofBytesLE_eq_ofDigits]
  simpa only [List.length_map] using Nat.ofDigits_lt_base_pow_length (by decide) hdigit

/-- Zero bytes at the end add nothing. -/
theorem ofBytesLE_append_zeros (bytes : List Byte) (k : Nat) :
    ofBytesLE (bytes ++ List.replicate k 0) = ofBytesLE bytes := by
  rw [ofBytesLE_eq_ofDigits, List.map_append, List.map_replicate, ofBytesLE_eq_ofDigits]
  exact Nat.ofDigits_append_replicate_zero _

theorem le32_toNat_eq_ofBytesLE (b0 b1 b2 b3 : Byte) :
    (le32 b0 b1 b2 b3).toNat = ofBytesLE [b0, b1, b2, b3] := by
  simp only [le32_toNat, ofBytesLE]
  omega

/-- The four bytes of the padded word are the valid pending bytes and then zeros (R120). -/
theorem padBytes_eq_validPending_append_zeros (b : Block) :
    [b.padByte 0, b.padByte 1, b.padByte 2, b.padByte 3] =
      b.validPending ++ List.replicate (4 - b.pendingLen.toNat) 0 := by
  have hlen := pendingLen_lt b
  simp only [Block.padByte, Block.validPending, Block.pendingBytes]
  generalize b.pendingLen.toNat = p at hlen
  interval_cases p <;> rfl

theorem paddedWord_toNat (b : Block) : b.paddedWord.toNat = ofBytesLE b.validPending := by
  rw [Block.paddedWord, le32_toNat_eq_ofBytesLE, padBytes_eq_validPending_append_zeros,
    ofBytesLE_append_zeros]

/-- Settles O18: the zeros above the valid bytes add nothing, and pendingLen bytes are a number below
2^(8 pendingLen). -/
theorem paddingMasksStaleBytes : Obligations.PaddingMasksStaleBytes := by
  intro b
  have hlt := ofBytesLE_lt b.validPending
  rw [validPending_length, ← paddedWord_toNat] at hlt
  exact ⟨paddedWord_toNat b, hlt⟩

theorem paddedWord_eq (b : Block) :
    b.paddedWord = BitVec.ofNat 32 (ofBytesLE b.validPending) := by
  rw [← paddedWord_toNat, BitVec.ofNat_toNat, BitVec.setWidth_eq]

/-- R120 through the valid pending bytes alone. -/
theorem finalize_eq (b : Block) :
    b.finalize =
      if b.pendingLen = 0 then b.sums
      else foldPure b.sums (BitVec.ofNat 32 (ofBytesLE b.validPending)) := by
  rw [Block.finalize, paddedWord_eq]

end Sys2Proof.Machine

/-! PROOFS. The two checksum reads and their one response (spec/41_finalize.md R124 to R129). -/

namespace Sys2Proof.Machine

/-- The n lowest bytes of a bit vector, the lowest first: what le64bytes and unpackBytes do at 8 and 32. -/
def lowBytes (n : Nat) {w : Nat} (x : BitVec w) : List Byte :=
  (List.range n).map fun k => x.extractLsb' (8 * k) 8

@[simp] theorem lowBytes_length (n : Nat) {w : Nat} (x : BitVec w) : (lowBytes n x).length = n := by
  rw [lowBytes, List.length_map, List.length_range]

theorem le64bytes_eq_lowBytes (x : Sum) : le64bytes x = lowBytes 8 x := rfl

theorem unpackBytes_eq_lowBytes (d : RspData) : unpackBytes d = lowBytes 32 d := rfl

/-- Concatenated vectors have the low part's bytes first. -/
theorem lowBytes_append (m n : Nat) {w : Nat} (hi : BitVec w) (lo : BitVec (8 * n)) :
    lowBytes (n + m) (hi ++ lo) = lowBytes n lo ++ lowBytes m hi := by
  rw [lowBytes, List.range_add, List.map_append, List.map_map]
  congr 1
  · refine List.map_congr_left fun k hk => BitVec.extractLsb'_append_eq_of_add_le ?_
    have := List.mem_range.mp hk
    omega
  · refine List.map_congr_left fun k _ => ?_
    rw [Function.comp_apply, BitVec.extractLsb'_append_eq_of_le (by omega),
      show 8 * (n + k) - 8 * n = 8 * k by omega]

/-- The bytes are the number's digits in base 2^8. -/
theorem ofBytesLE_lowBytes (n : Nat) {w : Nat} (x : BitVec w) :
    ofBytesLE (lowBytes n x) = x.toNat % (2 ^ 8) ^ n := by
  induction n with
  | zero => simp [lowBytes, ofBytesLE, Nat.mod_one]
  | succ n ih =>
    have hsplit : lowBytes (n + 1) x = lowBytes n x ++ [x.extractLsb' (8 * n) 8] := by
      simp [lowBytes, List.range_succ]
    have hlast : ofBytesLE [x.extractLsb' (8 * n) 8] = x.toNat / (2 ^ 8) ^ n % 2 ^ 8 := by
      simp [ofBytesLE, Nat.shiftRight_eq_div_pow, pow_mul]
    calc ofBytesLE (lowBytes (n + 1) x)
      _ = x.toNat % (2 ^ 8) ^ n + (2 ^ 8) ^ n * (x.toNat / (2 ^ 8) ^ n % 2 ^ 8) := by
        rw [hsplit, ofBytesLE_append, ih, hlast, lowBytes_length]
      _ = x.toNat % (2 ^ 8) ^ (n + 1) := Nat.mod_pow_succ.symm

/-- R127 and R130 agree on the place of each byte. -/
theorem packBytes_unpackBytes (d : RspData) : packBytes (unpackBytes d) = d := by
  apply BitVec.eq_of_toNat_eq
  rw [packBytes, unpackBytes_eq_lowBytes, ofBytesLE_lowBytes, BitVec.toNat_ofNat]
  omega

/-- Concatenation is a shift and an or, also when widened. -/
theorem setWidth_append_eq_or_shiftLeft (k : Nat) {m n : Nat} (hi : BitVec m) (lo : BitVec n) :
    (hi ++ lo).setWidth k = lo.setWidth k ||| hi.setWidth k <<< n := by
  ext j hj
  by_cases hlo : j < n
  · simp [BitVec.getLsbD_append, hlo]
  · simp [BitVec.getLsbD_append, hlo, BitVec.getLsbD_of_ge lo j (by omega)]

/-- R124's data is the four words side by side, s0 lowest. -/
theorem checksumData_eq_append (F : Sums) :
    checksumData F = F.s3 ++ (F.s2 ++ (F.s1 ++ F.s0)) := by
  calc checksumData F = (F.s3 ++ (F.s2 ++ (F.s1 ++ F.s0))).setWidth 256 := by
        simp only [setWidth_append_eq_or_shiftLeft]
        rfl
    _ = F.s3 ++ (F.s2 ++ (F.s1 ++ F.s0)) := BitVec.setWidth_eq _

/-- The two layouts of a response, R124 by words and R127 by bytes, are one. -/
theorem unpackBytes_checksumData (F : Sums) : unpackBytes (checksumData F) = serialize F := by
  calc unpackBytes (checksumData F)
    _ = lowBytes (24 + 8) (F.s3 ++ (F.s2 ++ (F.s1 ++ F.s0))) := by
      rw [unpackBytes_eq_lowBytes, checksumData_eq_append]
    _ = lowBytes (16 + 8) (F.s2 ++ (F.s1 ++ F.s0)) ++ lowBytes 8 F.s3 :=
      lowBytes_append 8 24 F.s3 (F.s2 ++ (F.s1 ++ F.s0))
    _ = lowBytes (8 + 8) (F.s1 ++ F.s0) ++ lowBytes 8 F.s2 ++ lowBytes 8 F.s3 :=
      congrArg (· ++ _) (lowBytes_append 8 16 F.s2 (F.s1 ++ F.s0))
    _ = serialize F :=
      congrArg (· ++ _ ++ _) (lowBytes_append 8 8 F.s1 F.s0)

theorem packBytes_serialize (F : Sums) : packBytes (serialize F) = checksumData F := by
  rw [← unpackBytes_checksumData, packBytes_unpackBytes]

/-- Settles O20: the data is four words side by side, and each extract picks one of them. -/
theorem checksumReturnsTheFinalizedSums : Obligations.ChecksumReturnsTheFinalizedSums := by
  intro s
  refine ⟨responseTo .checksum s.block, rfl, rfl, ?_⟩
  rw [← finalize_eq, responseTo, checksumData_eq_append]
  generalize s.block.finalize = F
  refine ⟨?_, ?_, ?_, ?_⟩
  · rw [BitVec.extractLsb'_append_eq_of_add_le (by decide),
      BitVec.extractLsb'_append_eq_of_add_le (by decide), BitVec.extractLsb'_append_eq_right]
  · rw [BitVec.extractLsb'_append_eq_of_add_le (by decide),
      BitVec.extractLsb'_append_eq_of_add_le (by decide), BitVec.extractLsb'_append_eq_left]
  · rw [BitVec.extractLsb'_append_eq_of_add_le (by decide), BitVec.extractLsb'_append_eq_left]
  · rw [BitVec.extractLsb'_append_eq_left]

/-- Settles O22: the bytes that APPEND packs are CHECKSUM's data. -/
theorem appendAnswersAsChecksum : Obligations.AppendAnswersAsChecksum := by
  intro s
  simp only [exec, execAppend, execChecksum, packBytes_serialize]

/-- Settles O21: the serialized bytes are those of the data that is answered. -/
theorem appendReturnsTheSerializedBytes : Obligations.AppendReturnsTheSerializedBytes := by
  intro s
  refine ⟨responseTo .append s.block, rfl, rfl, serialize_length _, fun j hj => ?_⟩
  calc (serialize s.block.finalize)[j]?
    _ = (unpackBytes (checksumData s.block.finalize))[j]? := by rw [unpackBytes_checksumData]
    _ = some ((checksumData s.block.finalize).extractLsb' (8 * j) 8) := by
      simp [unpackBytes, hj]
    _ = some ((responseTo .append s.block).data.extractLsb' (8 * j) 8) := by
      rw [responseTo, packBytes_serialize]

end Sys2Proof.Machine

/-! PROOFS. Reads in a host's list and in a list of commands (spec/41_finalize.md R123, R128). -/

namespace Sys2Proof.Machine

/-- R130: for an APPEND word that block b answers, the host reads back the serialized checksum of b. -/
theorem appendedBytes_responseTo_append {w : CmdWord} (hw : decode w = .append) (b : Block) :
    appendedBytes (some w) (responseTo (decode w) b) = serialize b.finalize := by
  rw [hw, responseTo, packBytes_serialize]
  simp [appendedBytes, hw, unpackBytes_checksumData]

/-- A step on the head of the host's list: the command's block, and its bytes in the buffer (R130, R191). -/
theorem step_of_command {s : State} {n : Nat} {w : CmdWord} {rest : List CmdWord}
    (hport : s.port = .idle n) (hcommands : s.commands = w :: rest) : ∃ t : State,
    step s = .next t ∧ t.block = blockAfter (decode w) s.block ∧ t.port = .idle 0 ∧
      t.commands = rest ∧
      t.buffer = s.buffer ++ appendedBytes (some w) (responseTo (decode w) s.block) := by
  obtain ⟨x, hx, hblock, hxport⟩ := exec_block_port (decode w) s
  have hframe : x.commands = s.commands ∧ x.buffer = s.buffer := by
    obtain ⟨y, _, hy, -, -, hycommands, -, -, hybuffer, -⟩ := exec_spec (decode w) s
    cases hx.symm.trans hy
    exact ⟨hycommands, hybuffer⟩
  obtain ⟨hxcommands, hxbuffer⟩ := hframe
  refine ⟨x.delayResponse.takeResponse, ?_, ?_⟩
  · simp only [step, State.stepCommand, hport, State.nextCommand, hcommands, List.head?_cons,
      State.accept, hx]
  · rw [delayResponse_of_outstanding hxport, takeResponse_of_outstanding rfl]
    simp only [hblock, hxcommands, hxbuffer, hcommands, List.head?_cons, List.tail_cons, and_self]

/-- R128 one APPEND at a time: the block stays and the buffer grows by the serialized checksum. -/
theorem step_of_append_word {s : State} {n : Nat} {w : CmdWord} {rest : List CmdWord}
    (hport : s.port = .idle n) (hcommands : s.commands = w :: rest) (hop : opField w = 0b011) :
    ∃ t : State, step s = .next t ∧ t.block = s.block ∧ t.port = .idle 0 ∧ t.commands = rest ∧
      t.buffer = s.buffer ++ serialize s.block.finalize := by
  have hw : decode w = .append := by simpa [hop] using decode_cases w
  obtain ⟨t, hstep, hblock, htport, htcommands, hbuffer⟩ := step_of_command hport hcommands
  rw [appendedBytes_responseTo_append hw] at hbuffer
  rw [hw] at hblock
  exact ⟨t, hstep, hblock, htport, htcommands, hbuffer⟩

/-- Settles O23: the second APPEND meets the block that the first one met. -/
theorem appendTwiceAppendsTheSameBytes : Obligations.AppendTwiceAppendsTheSameBytes := by
  intro s w w' rest n hport hcommands hop hop'
  obtain ⟨t, hstep, hblock, htport, htcommands, hbuffer⟩ :=
    step_of_append_word hport hcommands hop
  obtain ⟨u, hstep', hblock', -, -, hbuffer'⟩ := step_of_append_word htport htcommands hop'
  refine ⟨t, u, hstep, hstep', hblock'.trans hblock, hbuffer, ?_⟩
  rw [hbuffer', hbuffer, hblock]

/-- The block after a list of commands, one blockAfter after another. -/
def blockAfterAll (is : List Instr) (b : Block) : Block := is.foldl (fun b i => blockAfter i b) b

/-- The commands of a list never fault, and the block they leave is a function of the block they meet. -/
theorem perform_block (is : List Instr) (s : State) : ∃ t : State,
    perform is s = .next t ∧ t.block = blockAfterAll is s.block := by
  induction is generalizing s with
  | nil => exact ⟨s, rfl, rfl⟩
  | cons i is ih =>
    obtain ⟨x, hx, hblock, -⟩ := exec_block_port i s
    obtain ⟨t, ht, htblock⟩ := ih x
    refine ⟨t, ?_, ?_⟩
    · rw [perform, hx]
      exact ht
    · rw [htblock, hblock, blockAfterAll, blockAfterAll, List.foldl_cons]

/-- Settles O24: the later commands meet the same block whether or not the read came first. -/
theorem readsDoNotDisturbLaterCommands : Obligations.ReadsDoNotDisturbLaterCommands := by
  intro i is s hwrite hreset
  obtain ⟨t, ht, htblock⟩ := perform_block (i :: is) s
  obtain ⟨u, hu, hublock⟩ := perform_block is s
  refine ⟨t, u, ht, hu, ?_⟩
  calc t.block
    _ = blockAfterAll is (blockAfter i s.block) := htblock
    _ = blockAfterAll is s.block := by rw [blockAfter_of_not_write_reset s.block hwrite hreset]
    _ = u.block := hublock.symm

end Sys2Proof.Machine

/-! PROOFS. RESET, CSIZE and BSIZE (spec/42_control.md R140 to R144). -/

namespace Sys2Proof.Machine

/-- A command that is not reserved writes the block and the response port, and nothing else of the state: the
exact next state, where exec_spec gives it field by field. -/
theorem exec_of_not_reserved {i : Instr} (h0 : i ≠ .reserved0) (h7 : i ≠ .reserved7) (s : State) :
    exec i s =
      .next { s with
        block := blockAfter i s.block
        port := .outstanding 0 (responseTo i s.block) } := by
  cases i with
  | reserved0 => exact absurd rfl h0
  | reserved7 => exact absurd rfl h7
  | write bytes => exact exec_write bytes s
  | checksum | append | reset | csize | bsize => rfl

/-- Settles O26: RESET's block is Block.atReset, whatever block it meets, and its response (OK, 0). -/
theorem resetClearsTheBlock : Obligations.ResetClearsTheBlock :=
  exec_of_not_reserved (i := .reset) nofun nofun

/-- Settles O28: CSIZE and BSIZE leave the block they meet, and answer checksumSize and blockSize. -/
theorem sizesAreThirtyTwoAndFour : Obligations.SizesAreThirtyTwoAndFour := by
  intro s
  constructor
  · exact exec_of_not_reserved (i := .csize) nofun nofun s
  · exact exec_of_not_reserved (i := .bsize) nofun nofun s

end Sys2Proof.Machine

/-! PROOFS. The status of every response: OK for the ops 001 to 110, ILLEGAL for the reserved ones
(spec/60_exceptions.md R160, R162). -/

namespace Sys2Proof.Machine

/-- The decoder keeps the op: no word becomes a command of another op (R72). -/
theorem op_decode (w : CmdWord) : (decode w).op = opField w := by
  rcases decode_cases w with h | h | h | h | h | h | h | h <;> obtain ⟨hop, hw⟩ := h <;>
    rw [hop, hw, Instr.op]

theorem decode_ne_of_op_ne {w : CmdWord} {i : Instr} (h : opField w ≠ i.op) : decode w ≠ i := by
  rintro rfl
  exact h (op_decode w).symm

theorem responseTo_status_of_not_reserved {i : Instr} (h0 : i ≠ .reserved0) (h7 : i ≠ .reserved7)
    (b : Block) : (responseTo i b).status = statusOk := by
  cases i with
  | reserved0 => exact absurd rfl h0
  | reserved7 => exact absurd rfl h7
  | write | checksum | append | reset | csize | bsize => rfl

/-- The exact state after the acceptance of a word that is not reserved: the command's block, its response
delayed (R63), one more free value drawn, and nothing else. -/
theorem accept_of_not_reserved {w : CmdWord} (h0 : decode w ≠ .reserved0)
    (h7 : decode w ≠ .reserved7) (s : State) :
    s.accept w =
      .next { s with
        block := blockAfter (decode w) s.block
        port := .outstanding (Config.responseWait s.draws) (responseTo (decode w) s.block)
        draws := s.draws + 1 } := by
  simp only [State.accept, exec_of_not_reserved h0 h7]
  rw [delayResponse_of_outstanding rfl]

/-- Settles O30: a word of these ops decodes to a command that is not reserved, whose response is OK and whose
acceptance does not write the fault record. -/
theorem legalOpsCompleteWithOk : Obligations.LegalOpsCompleteWithOk := by
  intro w s hop0 hop7
  have h0 : decode w ≠ .reserved0 := decode_ne_of_op_ne hop0
  have h7 : decode w ≠ .reserved7 := decode_ne_of_op_ne hop7
  exact ⟨_, _, _, accept_of_not_reserved h0 h7 s, rfl,
    responseTo_status_of_not_reserved h0 h7 s.block, rfl⟩

/-- R162 for a word: the decoded command is answered (ILLEGAL, 0) and leaves the block. -/
theorem responseTo_blockAfter_of_op_reserved {w : CmdWord} (hop : opField w = 0b000 ∨ opField w = 0b111)
    (b : Block) :
    responseTo (decode w) b = { status := statusIllegal, data := 0 } ∧
      blockAfter (decode w) b = b := by
  have hdecode : decode w = .reserved0 ∨ decode w = .reserved7 :=
    hop.imp (fun h0 => by simpa [h0] using decode_cases w)
      (fun h7 => by simpa [h7] using decode_cases w)
  obtain hw | hw := hdecode <;> rw [hw] <;> exact ⟨rfl, rfl⟩

/-- Settles O51: the acceptance answers as the reserved command does, and the block accepts every word in any
state, so also in the one where the host has taken the response. -/
theorem reservedWordsChangeNoRegister : Obligations.ReservedWordsChangeNoRegister := by
  intro w s hop
  obtain ⟨hresponse, hblock⟩ := responseTo_blockAfter_of_op_reserved hop s.block
  obtain ⟨t, n, haccept, htblock, htport⟩ := accept_block_port w s
  rw [hresponse] at htport
  refine ⟨t, n, haccept, htport, htblock.trans hblock, fun w' => ?_⟩
  obtain ⟨u, -, hnext, -⟩ := accept_block_port w' t.takeResponse
  exact ⟨u, hnext⟩

end Sys2Proof.Machine

/-! PROOFS. The ports under rst, and while no command is outstanding (spec/70_reset_and_hazards.md R181). -/

namespace Sys2Proof.Machine

theorem cmdReady_of_idle {s : State} {n : Nat} (hs : s.port = .idle n) (rst : Bool) :
    s.cmdReady rst = (!rst && decide (n = 0)) := by
  simp [State.cmdReady, hs]

theorem rspOffered_of_idle {s : State} {n : Nat} (hs : s.port = .idle n) (rst : Bool) :
    s.rspOffered rst = none := by
  simp [State.rspOffered, hs]

@[simp] theorem cmdReady_of_rst (s : State) : s.cmdReady true = false := by
  cases hs : s.port <;> simp [State.cmdReady, hs]

@[simp] theorem rspOffered_of_rst (s : State) : s.rspOffered true = none := by
  cases hs : s.port <;> simp [State.rspOffered, hs]

/-- Only an acceptance ends the idle port (R61, R181): rst restarts the wait for cmd_ready, an edge of that wait
shortens it, and a ready block that is offered no command stays as it is. -/
theorem edge_of_idle_not_accepted {inp : PortIn} {s : State} {n : Nat} (hs : s.port = .idle n)
    (hno : inp.rst = true ∨ inp.cmdValid = false ∨ s.cmdReady false = false) :
    ∃ (t : State) (m : Nat), s.edge inp = .next t ∧ t.port = .idle m := by
  cases hrst : inp.rst with
  | true => exact ⟨s.rstEdge, _, edge_of_rst inp s hrst, awaitReady_port s.resetBlock⟩
  | false =>
    cases n with
    | succ n => exact ⟨_, n, edge_of_waiting_ready inp s n hrst hs, rfl⟩
    | zero =>
      have hvalid : inp.cmdValid = false := by simpa [hrst, cmdReady_of_idle hs] using hno
      exact ⟨s, 0, by simp [edge_of_ready inp s hrst hs, hvalid], hs⟩

/-- Settles O46: an edge that accepts no command keeps the port idle, and an idle port offers no response. -/
theorem noResponseBeforeACommand : Obligations.NoResponseBeforeACommand := by
  refine ⟨fun s => ⟨cmdReady_of_rst s, rspOffered_of_rst s⟩, fun inp s n hs hno => ?_⟩
  obtain ⟨t, m, hedge, ht⟩ := edge_of_idle_not_accepted hs hno
  exact ⟨t, m, hedge, ht, rspOffered_of_idle ht⟩

end Sys2Proof.Machine

/-! PROOFS. The encoder and the decoder undo each other (spec/30_encoding.md R64 to R72, R76). -/

namespace Sys2Proof.Machine

/-- R67: the two bits of lenm1 give a count of 1 to 4. -/
theorem byteCount_bounds (w : CmdWord) : 1 ≤ byteCount w ∧ byteCount w ≤ 4 :=
  ⟨Nat.le_add_left _ _, (lenm1Field w).isLt⟩

theorem wellFormed_write_iff (bytes : List Byte) :
    (Instr.write bytes).wellFormed = true ↔ 1 ≤ bytes.length ∧ bytes.length ≤ 4 := by
  simp [Instr.wellFormed]

theorem wellFormed_decode (w : CmdWord) : (decode w).wellFormed = true := by
  rcases decode_cases w with h | h | h | h | h | h | h | h <;> obtain ⟨-, hw⟩ := h <;> rw [hw]
  case inr.inl =>
    rw [wellFormed_write_iff, dataBytes_length]
    exact byteCount_bounds w
  all_goals rfl

/-- Settles O2: the decoder keeps the op, and the count of a WRITE word is from 1 to 4. -/
theorem decodingIsTotalByOp : Obligations.DecodingIsTotalByOp :=
  fun w => ⟨op_decode w, wellFormed_decode w⟩

/-- R64: op, lenm1, rsvd and the four lanes are all the bits of a word. -/
theorem cmdWord_ext {w w' : CmdWord} (hop : opField w = opField w')
    (hlen : lenm1Field w = lenm1Field w') (hrsvd : rsvdField w = rsvdField w')
    (hlanes : ∀ j < 4, lane w j = lane w' j) : w = w' := by
  have hbit {a n : Nat} (h : w.extractLsb' a n = w'.extractLsb' a n) {j : Nat} (hj : j < n) :
      w.getLsbD (a + j) = w'.getLsbD (a + j) := by
    simpa [hj] using congrArg (BitVec.getLsbD · j) h
  apply BitVec.eq_of_getLsbD_eq
  intro j hj
  by_cases h3 : j < 3
  · simpa using hbit hop h3
  by_cases h5 : j < 5
  · simpa [show 3 + (j - 3) = j by omega] using hbit hlen (show j - 3 < 2 by omega)
  by_cases h8 : j < 8
  · simpa [show 5 + (j - 5) = j by omega] using hbit hrsvd (show j - 5 < 3 by omega)
  · have hlane := hlanes ((j - 8) / 8) (by omega)
    simpa [show 8 * ((j - 8) / 8) + 8 + j % 8 = j by omega] using
      hbit hlane (show j % 8 < 8 by omega)

/-- R42, R65: byte j of le32 is the j-th byte it was built from. -/
theorem le32_extractLsb' (b0 b1 b2 b3 : Byte) {j : Nat} (hj : j < 4) :
    (le32 b0 b1 b2 b3).extractLsb' (8 * j) 8 = [b0, b1, b2, b3].getD j 0 := by
  apply BitVec.eq_of_toNat_eq
  rw [BitVec.extractLsb'_toNat, le32_toNat, Nat.shiftRight_eq_div_pow]
  interval_cases j <;> simp <;> omega

/-- R64: the word of a WRITE is its four fields side by side, op lowest. -/
theorem encode_write_eq_append {bytes : List Byte} (hlen : bytes.length ≤ 4) :
    encode (.write bytes) =
      dataField bytes ++ ((0 : BitVec 3) ++ (BitVec.ofNat 2 (bytes.length - 1) ++ (0b001 : BitVec 3))) := by
  have hcount : BitVec.ofNat 40 (bytes.length - 1) =
      (BitVec.ofNat 2 (bytes.length - 1)).setWidth 40 := by
    apply BitVec.eq_of_toNat_eq
    simp
    omega
  calc encode (.write bytes)
    _ = (dataField bytes ++ ((0 : BitVec 3) ++
          (BitVec.ofNat 2 (bytes.length - 1) ++ (0b001 : BitVec 3)))).setWidth 40 := by
      simp only [setWidth_append_eq_or_shiftLeft, encode, hcount]
      simp
      ac_rfl
    _ = _ := BitVec.setWidth_eq _

theorem lenm1Field_encode_write {bytes : List Byte} (hlen : bytes.length ≤ 4) :
    lenm1Field (encode (.write bytes)) = BitVec.ofNat 2 (bytes.length - 1) := by
  rw [encode_write_eq_append hlen, lenm1Field, BitVec.extractLsb'_append_eq_of_add_le (by decide),
    BitVec.extractLsb'_append_eq_of_add_le (by decide), BitVec.extractLsb'_append_eq_left]

theorem rsvdField_encode_write {bytes : List Byte} (hlen : bytes.length ≤ 4) :
    rsvdField (encode (.write bytes)) = 0 := by
  rw [encode_write_eq_append hlen, rsvdField, BitVec.extractLsb'_append_eq_of_add_le (by decide),
    BitVec.extractLsb'_append_eq_left]

theorem lane_encode_write {bytes : List Byte} (hlen : bytes.length ≤ 4) {j : Nat} (hj : j < 4) :
    lane (encode (.write bytes)) j = bytes.getD j 0 := by
  have hdata : lane (encode (.write bytes)) j = (dataField bytes).extractLsb' (8 * j) 8 := by
    rw [encode_write_eq_append hlen, lane, BitVec.extractLsb'_append_eq_of_le (by omega)]
    rfl
  rw [hdata, dataField, le32_extractLsb' _ _ _ _ hj]
  interval_cases j <;> rfl

theorem byteCount_encode_write {bytes : List Byte} (h1 : 1 ≤ bytes.length) (h4 : bytes.length ≤ 4) :
    byteCount (encode (.write bytes)) = bytes.length := by
  rw [byteCount, lenm1Field_encode_write h4, BitVec.toNat_ofNat]
  omega

/-- The lanes below the count are the bytes themselves (R68, R76). -/
theorem dataBytes_encode_write {bytes : List Byte} (h1 : 1 ≤ bytes.length) (h4 : bytes.length ≤ 4) :
    dataBytes (encode (.write bytes)) = bytes := by
  have hcount := byteCount_encode_write h1 h4
  apply List.ext_getElem
  · rw [dataBytes_length, hcount]
  · intro j hj hj'
    apply Option.some.inj
    rw [← List.getElem?_eq_getElem, dataBytes_getElem? _ (by omega), lane_encode_write h4 (by omega),
      List.getD_eq_getElem _ _ hj']

theorem decode_encode {i : Instr} (hi : i.wellFormed = true) : decode (encode i) = i := by
  cases i with
  | write bytes =>
    obtain ⟨h1, h4⟩ := (wellFormed_write_iff bytes).mp hi
    rw [decode_of_op_write (Laws.EncodesOp.write bytes), dataBytes_encode_write h1 h4]
  | reserved0 | checksum | append | reset | csize | bsize | reserved7 => decide

/-- Settles O1: op, count and lanes of the word are those of the command. -/
theorem encodeThenDecodeGivesTheCommand : Obligations.EncodeThenDecodeGivesTheCommand :=
  fun _ => decode_encode

/-- R66: the word of a command without operands is its op alone. -/
theorem encode_of_not_write {i : Instr} (hi : ∀ bytes, i ≠ .write bytes) :
    encode i = i.op.setWidth 40 := by
  cases i with
  | write bytes => exact absurd rfl (hi bytes)
  | reserved0 | checksum | append | reset | csize | bsize | reserved7 => rfl

/-- The mask of a WRITE word, field by field: op, lenm1 and the lanes below the count (R64, R69). -/
theorem usedMask_fields {w : CmdWord} (hop : opField w = 0b001) :
    opField (usedMask w) = 0b111 ∧ lenm1Field (usedMask w) = 0b11 ∧ rsvdField (usedMask w) = 0 ∧
      ∀ j < 4, lane (usedMask w) j = if j < byteCount w then 0xff else 0 := by
  obtain ⟨h1, h4⟩ := byteCount_bounds w
  rw [usedMask, if_pos hop]
  generalize byteCount w = c at h1 h4
  interval_cases c <;> decide

theorem opField_and (w w' : CmdWord) : opField (w &&& w') = opField w &&& opField w' :=
  BitVec.extractLsb'_and

theorem lenm1Field_and (w w' : CmdWord) : lenm1Field (w &&& w') = lenm1Field w &&& lenm1Field w' :=
  BitVec.extractLsb'_and

theorem rsvdField_and (w w' : CmdWord) : rsvdField (w &&& w') = rsvdField w &&& rsvdField w' :=
  BitVec.extractLsb'_and

theorem lane_and (w w' : CmdWord) (j : Nat) : lane (w &&& w') j = lane w j &&& lane w' j :=
  BitVec.extractLsb'_and

theorem encode_write_dataBytes {w : CmdWord} (hop : opField w = 0b001) :
    encode (.write (dataBytes w)) = w &&& usedMask w := by
  obtain ⟨hmaskop, hmasklen, hmaskrsvd, hmasklane⟩ := usedMask_fields hop
  have h4 : (dataBytes w).length ≤ 4 := dataBytes_length w ▸ (byteCount_bounds w).2
  apply cmdWord_ext
  · rw [Laws.EncodesOp.write, opField_and, hmaskop, hop]
    rfl
  · rw [lenm1Field_encode_write h4, dataBytes_length, lenm1Field_and, hmasklen, byteCount,
      Nat.add_sub_cancel, BitVec.ofNat_toNat, BitVec.setWidth_eq]
    exact BitVec.and_allOnes.symm
  · rw [rsvdField_encode_write h4, rsvdField_and, hmaskrsvd]
    exact BitVec.and_zero.symm
  · intro j hj
    rw [lane_encode_write h4 hj, lane_and, hmasklane j hj, List.getD_eq_getElem?_getD]
    by_cases hlane : j < byteCount w
    · rw [dataBytes_getElem? w hlane, if_pos hlane]
      exact BitVec.and_allOnes.symm
    · rw [List.getElem?_eq_none (by rw [dataBytes_length]; omega), if_neg hlane]
      exact BitVec.and_zero.symm

/-- Settles O4: the encoder writes the used fields of a WRITE word and 0 elsewhere; of any other word only op
is used. -/
theorem encodingClearsTheIgnoredBits : Obligations.EncodingClearsTheIgnoredBits := by
  intro w
  by_cases hop : opField w = 0b001
  · rw [decode_of_op_write hop, encode_write_dataBytes hop]
  · have hwrite (bytes : List Byte) : decode w ≠ .write bytes := decode_ne_of_op_ne hop
    rw [encode_of_not_write hwrite, op_decode, usedMask, if_neg hop]
    apply BitVec.eq_of_toNat_eq
    calc ((opField w).setWidth 40).toNat
      _ = w.toNat % 2 ^ 3 := by
        simp [opField]
        omega
      _ = (w &&& 0x7).toNat := (Nat.and_two_pow_sub_one_eq_mod w.toNat 3).symm

/-- Settles O6: each word has the op of its command, and a WRITE word its lanes: the decoder
evaluated on each. -/
theorem writtenOutWordsDecode : Obligations.WrittenOutWordsDecode := by
  unfold Obligations.WrittenOutWordsDecode
  decide

end Sys2Proof.Machine

/-! PROOFS. Folds in a row (spec/40_accumulate.md R90 to R94, R102, R161) and the zero word (spec/41_finalize.md
R122). -/

namespace Sys2Proof.Machine

/-- The word is unsigned: widening it to a sum keeps its number (R93). -/
theorem setWidth_word_toNat (v : Word) : (v.setWidth 64).toNat = v.toNat := by
  rw [BitVec.toNat_setWidth]
  exact Nat.mod_eq_of_lt (v.isLt.trans (by decide))

/-- Settles O10: each stage adds the sum below it, and a sum of residues modulo 2^64 is the residue of the sum. -/
theorem foldIsModularAndUnsigned : Obligations.FoldIsModularAndUnsigned := by
  intro S v
  simp only [foldPure, BitVec.toNat_add, setWidth_word_toNat, Nat.add_mod_mod, ← Nat.add_assoc, and_self]

/-- Settles O12: the two branches of the block fold. -/
theorem blockFoldFaultsOnPartialBlocks : Obligations.BlockFoldFaultsOnPartialBlocks :=
  fun bytes b => ⟨fun h => if_neg h, foldBlock_whole bytes b⟩

/-- One fold before k others: the closed form of the k, from the sums after the one, is that of the k + 1. The
binomial coefficients obey Pascal's rule. -/
theorem foldClosed_cons (S : Sums) (v : Word) (vs : List Word) :
    foldClosed S (v :: vs) = foldClosed (foldPure S v) vs := by
  have hone : BitVec.ofNat 64 1 = (1 : Sum) := rfl
  have hpascal2 (k : Nat) : (k + 2).choose 2 = (k + 1) + (k + 1).choose 2 := by
    rw [Nat.choose_succ_succ' (k + 1) 1, Nat.choose_one_right]
  have hpascal3 (k : Nat) : (k + 3).choose 3 = (k + 2).choose 2 + (k + 2).choose 3 :=
    Nat.choose_succ_succ' (k + 2) 2
  simp only [foldClosed, foldPure, weighted, List.length_cons, Sums.mk.injEq,
    show vs.length + 1 + 1 = vs.length + 2 from rfl, show vs.length + 1 + 2 = vs.length + 3 from rfl,
    hpascal2, hpascal3, BitVec.ofNat_add, hone]
  generalize BitVec.ofNat 64 vs.length = k
  refine ⟨?_, ?_, ?_, ?_⟩ <;> ring

/-- Settles O11, by induction on the list of words. -/
theorem foldsHaveTheClosedForm : Obligations.FoldsHaveTheClosedForm := by
  intro S vs
  induction vs generalizing S with
  | nil => simp [foldWords, foldClosed, weighted]
  | cons v vs ih =>
    calc foldWords S (v :: vs)
      _ = foldWords (foldPure S v) vs := rfl
      _ = foldClosed (foldPure S v) vs := ih _
      _ = foldClosed S (v :: vs) := (foldClosed_cons S v vs).symm

/-- R28: aligned is pendingLen 0. -/
theorem logicalState_eq_aligned_iff (b : Block) : b.logicalState = .aligned ↔ b.pendingLen = 0 := by
  rw [Block.logicalState]
  split <;> simp_all

/-- Settles O19: aligned, finalize folds nothing; a zero word still adds s0 to s1. -/
theorem alignedFoldsNoZeroWord : Obligations.AlignedFoldsNoZeroWord := by
  refine ⟨fun b hb => ?_, fun S hS hfold => hS ?_⟩
  · rw [finalize_eq, if_pos ((logicalState_eq_aligned_iff b).mp hb)]
  · have hs1 : S.s1 + (S.s0 + 0) = S.s1 := congrArg Sums.s1 hfold
    simpa using hs1

end Sys2Proof.Machine

/-! PROOFS. The exact next state of every command, and its frame (spec/10_state.md R26 to R29,
spec/60_exceptions.md R162, R163). -/

namespace Sys2Proof.Machine

/-- The state after command i, its response outstanding: what exec answers, with no fault left to rule out. -/
def State.performed (i : Instr) (s : State) : State :=
  { s with
    block := blockAfter i s.block
    port := .outstanding 0 (responseTo i s.block)
    faults := s.faults ++ illegalAt s.index [i] }

/-- The fault record gains nothing by a command that is not reserved (R163). -/
theorem illegalAt_of_not_reserved {i : Instr} (h0 : i ≠ .reserved0) (h7 : i ≠ .reserved7) (n : Nat) :
    illegalAt n [i] = [] := by
  simp [illegalAt, h0, h7]

/-- Every command of every state answers this one next state. -/
theorem exec_eq (i : Instr) (s : State) : exec i s = .next (s.performed i) := by
  by_cases hi : i = .reserved0 ∨ i = .reserved7
  · rcases hi with rfl | rfl <;> rfl
  · obtain ⟨h0, h7⟩ := not_or.mp hi
    rw [exec_of_not_reserved h0 h7, State.performed, illegalAt_of_not_reserved h0 h7, List.append_nil]

/-- Settles O29: that next state for a reserved command. -/
theorem reservedOpsAreAnsweredIllegal : Obligations.ReservedOpsAreAnsweredIllegal := by
  rintro i s (rfl | rfl) <;> exact exec_eq _ s

/-- Settles O32: performed writes the block, the port and the fault record only. -/
theorem commandsLeaveTheHostAlone : Obligations.CommandsLeaveTheHostAlone := by
  intro i s
  refine ⟨s.performed i, responseTo i s.block, exec_eq i s, rfl, rfl, rfl, rfl, rfl, rfl, fun h0 h7 => ?_⟩
  rw [State.performed, illegalAt_of_not_reserved h0 h7, List.append_nil]

/-- The stream's last bytes are fewer than 4, and their count is the length modulo 4 (R43). -/
@[simp] theorem streamTail_length (B : List Byte) : (streamTail B).length = B.length % 4 := by
  simp [streamTail]
  omega

theorem streamTail_length_lt (B : List Byte) : (streamTail B).length < 4 := by
  rw [streamTail_length]
  exact Nat.mod_lt _ (by decide)

theorem streamTail_of_short {B : List Byte} (h : B.length < 4) : streamTail B = B := by
  rw [streamTail, Nat.div_eq_of_lt h, List.drop_zero]

/-- R96, the three parts of a WRITE's equation: sums, valid pending bytes and their count. -/
theorem blockAfter_write_sums (bytes : List Byte) (b : Block) :
    (blockAfter (.write bytes) b).sums = foldWords b.sums (wordsOf (b.validPending ++ bytes)) := rfl

theorem blockAfter_write_validPending (bytes : List Byte) (b : Block) :
    (blockAfter (.write bytes) b).validPending = streamTail (b.validPending ++ bytes) :=
  validPending_storePending _ _ (streamTail_length_lt _)

theorem blockAfter_write_pendingLen (bytes : List Byte) (b : Block) :
    (blockAfter (.write bytes) b).pendingLen.toNat = (b.validPending ++ bytes).length % 4 := by
  rw [← streamTail_length]
  exact pendingLen_storePending _ _ (streamTail_length_lt _)

/-- Settles O13: the block after a WRITE has the three parts of R96. -/
theorem writeIsOneEquation : Obligations.WriteIsOneEquation := fun bytes s =>
  ⟨blockAfter (.write bytes) s.block, exec_write bytes s, blockAfter_write_sums bytes s.block,
    blockAfter_write_validPending bytes s.block, blockAfter_write_pendingLen bytes s.block⟩

/-- Settles O35: the count of a WRITE's equation, the reset block, and a block that is left alone. -/
theorem pendingCountMovesByWriteCounts : Obligations.PendingCountMovesByWriteCounts := by
  intro i s
  refine ⟨s.performed i, exec_eq i s, ?_⟩
  cases i with
  | write bytes =>
    change (blockAfter (.write bytes) s.block).pendingLen.toNat = _
    rw [blockAfter_write_pendingLen, List.length_append, validPending_length]
  | reset => exact ⟨rfl, rfl⟩
  | reserved0 | checksum | append | csize | bsize | reserved7 => exact ⟨rfl, rfl⟩

/-- Settles O31: R36's values, as the reset block writes them. -/
theorem resetStateIsZero : Obligations.ResetStateIsZero := ⟨rfl, rfl, rfl, rfl⟩

/-! ## The assembly datapath (R97) -/

/-- The 7-byte assembly vector is the valid pending bytes and then the beat. -/
theorem assembly_eq_getD (bytes : List Byte) (b : Block) (j : Nat) :
    b.assembly bytes j = (b.validPending ++ bytes).getD j 0 := by
  rw [Block.assembly]
  split
  case isTrue hj =>
    rw [List.getD_append _ _ _ _ (by simpa using hj), Block.validPending]
    simp [hj]
  case isFalse hj =>
    rw [List.getD_append_right _ _ _ _ (by simpa using hj), validPending_length]

theorem getD_eq_ite (P : List Byte) (j : Nat) (d d' : Byte) :
    P.getD j d = if j < P.length then P.getD j d' else d := by
  split
  case isTrue hj => rw [List.getD_eq_getElem _ _ hj, List.getD_eq_getElem _ _ hj]
  case isFalse hj => rw [List.getD_eq_default _ _ (by omega)]

theorem wordsOf_one_word {T : List Byte} (h4 : 4 ≤ T.length) (h8 : T.length < 8) :
    wordsOf T = [le32 (T.getD 0 0) (T.getD 1 0) (T.getD 2 0) (T.getD 3 0)] := by
  match T, h4, h8 with
  | b0 :: b1 :: b2 :: b3 :: rest, _, h8 =>
    rw [wordsOf, wordsOf_short rest (by simp at h8; omega)]
    rfl

/-- A pending register below pendingLen is the byte of that number in front of any new bytes (R24). -/
theorem validPending_append_getD {b : Block} {j : Nat} (hj : j < b.pendingLen.toNat)
    (bytes : List Byte) : (b.validPending ++ bytes).getD j 0 = b.pendingBytes.getD j 0 := by
  rw [← assembly_eq_getD, Block.assembly, if_pos hj]

/-- Without a whole word the datapath writes only the registers from pendingLen on, and WRITE stores in those
below the bytes they hold. -/
theorem storePending_getD {b : Block} (bytes : List Byte) (j : Nat) :
    (b.validPending ++ bytes).getD j (b.pendingBytes.getD j 0) =
      if b.pendingLen.toNat ≤ j ∧ j < (b.validPending ++ bytes).length
      then (b.validPending ++ bytes).getD j 0 else b.pendingBytes.getD j 0 := by
  rw [getD_eq_ite _ j _ 0]
  by_cases hp : j < b.pendingLen.toNat
  · rw [validPending_append_getD hp, ite_self, ite_self]
  · simp only [show b.pendingLen.toNat ≤ j by omega, true_and]

/-- With a whole word the rest starts at byte 4 of T. -/
theorem drop_four_getD (T : List Byte) (j : Nat) (d : Byte) :
    (T.drop 4).getD j d = if j < T.length - 4 then T.getD (4 + j) 0 else d := by
  rw [getD_eq_ite _ j d 0, List.length_drop]
  simp

/-- R97 for a beat of at most 4 bytes: T has at most 7, so at most one word to fold. -/
theorem blockAfter_write_eq_writeDatapath {bytes : List Byte} (hlen : bytes.length ≤ 4) (b : Block) :
    blockAfter (.write bytes) b = b.writeDatapath bytes := by
  have hp := pendingLen_lt b
  have hT : (b.validPending ++ bytes).length = b.pendingLen.toNat + bytes.length := by simp
  simp only [blockAfter, Block.writeDatapath, assembly_eq_getD, ← hT]
  by_cases h4 : 4 ≤ (b.validPending ++ bytes).length
  · rw [if_pos h4, show (b.validPending ++ bytes).length / 4 = 1 by omega,
      wordsOf_one_word h4 (by omega)]
    simp only [Block.storePending, Nat.mul_one, drop_four_getD, List.length_drop]
    rfl
  · rw [if_neg h4, show (b.validPending ++ bytes).length / 4 = 0 by omega,
      wordsOf_short _ (by omega), Nat.mul_zero, List.drop_zero, Block.storePending,
      Block.mk.injEq]
    exact ⟨rfl, storePending_getD bytes 0, storePending_getD bytes 1, storePending_getD bytes 2, rfl⟩

/-- Settles O14: the block that R96's equation gives is the one the datapath leaves. -/
theorem writeIsTheAssemblyDatapath : Obligations.WriteIsTheAssemblyDatapath := by
  intro bytes s _ hlen
  rw [exec_write, blockAfter_write_eq_writeDatapath hlen]
  rfl

end Sys2Proof.Machine

/-! PROOFS. The byte stream and the block that holds it (spec/10_state.md R24, R25, R35,
spec/20_memory.md R41, R43, spec/40_accumulate.md R101). -/

namespace Sys2Proof.Machine

/-! ## Whole words and the tail -/

theorem streamWhole_append_streamTail (B : List Byte) :
    B.take (4 * (B.length / 4)) ++ streamTail B = B :=
  List.take_append_drop _ _

theorem streamWhole_length_mod (B : List Byte) : (B.take (4 * (B.length / 4))).length % 4 = 0 := by
  rw [List.length_take, min_eq_left (Nat.mul_div_le _ _), Nat.mul_mod_right]

theorem streamTail_append_of_whole {xs : List Byte} (h : xs.length % 4 = 0) (ys : List Byte) :
    streamTail (xs ++ ys) = streamTail ys := by
  have hdiv : 4 * ((xs ++ ys).length / 4) = xs.length + 4 * (ys.length / 4) := by
    rw [List.length_append]
    omega
  rw [streamTail, hdiv, List.drop_length_add_append, streamTail]

/-- After B only its tail matters: new bytes complete the same words behind it as behind all of B. -/
theorem wordsOf_append_eq (B bytes : List Byte) :
    wordsOf (B ++ bytes) = wordsOf B ++ wordsOf (streamTail B ++ bytes) := by
  calc wordsOf (B ++ bytes)
    _ = wordsOf (B.take (4 * (B.length / 4)) ++ (streamTail B ++ bytes)) := by
      rw [← List.append_assoc, streamWhole_append_streamTail]
    _ = wordsOf B ++ wordsOf (streamTail B ++ bytes) := by
      rw [wordsOf_append _ _ (streamWhole_length_mod B), wordsOf_take_whole]

theorem streamTail_append_eq (B bytes : List Byte) :
    streamTail (B ++ bytes) = streamTail (streamTail B ++ bytes) := by
  calc streamTail (B ++ bytes)
    _ = streamTail (B.take (4 * (B.length / 4)) ++ (streamTail B ++ bytes)) := by
      rw [← List.append_assoc, streamWhole_append_streamTail]
    _ = streamTail (streamTail B ++ bytes) :=
      streamTail_append_of_whole (streamWhole_length_mod B) _

/-! ## A block that holds a stream -/

/-- holdsStream with any sums S to start from, so that it is true of every block for some stream. -/
def Block.holdsStreamFrom (S : Sums) (B : List Byte) (b : Block) : Prop :=
  b.sums = foldWords S (wordsOf B) ∧ b.validPending = streamTail B ∧
    b.pendingLen.toNat = B.length % 4

theorem holdsStream_iff (B : List Byte) (b : Block) :
    b.holdsStream B ↔ b.holdsStreamFrom Block.atReset.sums B := Iff.rfl

/-- Every block holds its own valid pending bytes from its own sums. -/
theorem holdsStreamFrom_self (b : Block) : b.holdsStreamFrom b.sums b.validPending := by
  have hlt := pendingLen_lt b
  rw [← validPending_length] at hlt
  refine ⟨?_, (streamTail_of_short hlt).symm, ?_⟩
  · rw [wordsOf_short _ hlt, foldWords, List.foldl_nil]
  · rw [Nat.mod_eq_of_lt hlt, validPending_length]

/-- Blocks that hold the same stream from the same sums differ at most in stale bytes. -/
theorem sameValid_of_holdsStreamFrom {S : Sums} {B : List Byte} {a b : Block}
    (ha : a.holdsStreamFrom S B) (hb : b.holdsStreamFrom S B) : a.sameValid b := by
  obtain ⟨hasums, havalid, halen⟩ := ha
  obtain ⟨hbsums, hbvalid, hblen⟩ := hb
  exact ⟨hasums.trans hbsums.symm, BitVec.eq_of_toNat_eq (halen.trans hblen.symm),
    havalid.trans hbvalid.symm⟩

/-- R41: a WRITE adds its bytes to the stream. -/
theorem holdsStreamFrom_write {S : Sums} {B : List Byte} {b : Block} (h : b.holdsStreamFrom S B)
    (bytes : List Byte) : (blockAfter (.write bytes) b).holdsStreamFrom S (B ++ bytes) := by
  obtain ⟨hsums, hvalid, -⟩ := h
  refine ⟨?_, ?_, ?_⟩
  · rw [blockAfter_write_sums, hsums, hvalid, ← foldWords_append, ← wordsOf_append_eq]
  · rw [blockAfter_write_validPending, hvalid, ← streamTail_append_eq]
  · rw [blockAfter_write_pendingLen, hvalid, List.length_append, streamTail_length, Nat.mod_add_mod,
      List.length_append]

theorem holdsStreamFrom_writes {S : Sums} {B : List Byte} {b : Block} (h : b.holdsStreamFrom S B)
    (xs : List (List Byte)) :
    (blockAfterAll (xs.map .write) b).holdsStreamFrom S (B ++ xs.flatten) := by
  induction xs generalizing B b with
  | nil => simpa [blockAfterAll] using h
  | cons x xs ih =>
    rw [List.flatten_cons, ← List.append_assoc]
    exact ih (holdsStreamFrom_write h x)

/-- R25 for the checksum: it reads no stale byte. -/
theorem finalize_congr {a b : Block} (h : a.sameValid b) : a.finalize = b.finalize := by
  obtain ⟨hsums, hlen, hvalid⟩ := h
  rw [finalize_eq, finalize_eq, hsums, hlen, hvalid]

/-- Settles O16: whatever the split, the block holds the same stream from the sums there were. -/
theorem chunkingDoesNotMatter : Obligations.ChunkingDoesNotMatter := by
  intro xs ys s hflatten
  obtain ⟨t, ht, htblock⟩ := perform_block (xs.map .write) s
  obtain ⟨u, hu, hublock⟩ := perform_block (ys.map .write) s
  have htholds := holdsStreamFrom_writes (holdsStreamFrom_self s.block) xs
  have huholds := holdsStreamFrom_writes (holdsStreamFrom_self s.block) ys
  rw [← htblock] at htholds
  rw [← hublock, ← hflatten] at huholds
  have hsame := sameValid_of_holdsStreamFrom htholds huholds
  exact ⟨t, u, ht, hu, hsame, finalize_congr hsame⟩

/-! ## Stale bytes (R25) -/

/-- A WRITE reads the valid pending bytes only, RESET none, and the others leave the block. -/
theorem blockAfter_congr (i : Instr) {a b : Block} (h : a.sameValid b) :
    (blockAfter i a).sameValid (blockAfter i b) := by
  cases i with
  | write bytes =>
    obtain ⟨hsums, -, hvalid⟩ := h
    have ha := holdsStreamFrom_write (holdsStreamFrom_self a) bytes
    have hb := holdsStreamFrom_write (holdsStreamFrom_self b) bytes
    rw [← hsums, ← hvalid] at hb
    exact sameValid_of_holdsStreamFrom ha hb
  | reset => exact ⟨rfl, rfl, rfl⟩
  | reserved0 | checksum | append | csize | bsize | reserved7 => exact h

/-- A response reads the block through finalize only. -/
theorem responseTo_congr (i : Instr) {a b : Block} (h : a.sameValid b) :
    responseTo i a = responseTo i b := by
  cases i with
  | checksum | append => simp only [responseTo, finalize_congr h]
  | write | reset | reserved0 | csize | bsize | reserved7 => rfl

/-- One command on two blocks that differ in stale bytes: the next states differ in stale bytes. -/
theorem performed_congr (i : Instr) (s : State) {b : Block} (h : s.block.sameValid b) :
    State.performed i { s with block := b } = { s.performed i with block := blockAfter i b } := by
  simp only [State.performed, responseTo_congr i h]

/-- Settles O36, by induction on the list: the states stay equal but for stale bytes of the block. -/
theorem stalePendingBytesAreUnobservable : Obligations.StalePendingBytesAreUnobservable := by
  intro is
  induction is with
  | nil => exact fun s b h => ⟨s, { s with block := b }, rfl, rfl, h, rfl, rfl⟩
  | cons i is ih =>
    intro s b h
    have hnext : (s.performed i).block.sameValid (blockAfter i b) := blockAfter_congr i h
    simp only [perform, exec_eq, performed_congr i s h]
    exact ih (s.performed i) (blockAfter i b) hnext

end Sys2Proof.Machine

/-! PROOFS. The stream since the last reset decides the block (spec/10_state.md R35, spec/20_memory.md R41,
spec/42_control.md R141). -/

namespace Sys2Proof.Machine

theorem holdsStream_atReset : Block.atReset.holdsStream [] := ⟨rfl, rfl, rfl⟩

/-- Settles O53: the reset state's block is Block.atReset. -/
theorem resetHoldsTheEmptyStream : Obligations.ResetHoldsTheEmptyStream := holdsStream_atReset

/-- R41 for one command, and the step case of every claim about streams. -/
theorem holdsStream_blockAfter {B : List Byte} {b : Block} (h : b.holdsStream B) (i : Instr) :
    (blockAfter i b).holdsStream (streamAfter B [i]) := by
  cases i with
  | write bytes =>
    rw [holdsStream_iff] at h ⊢
    exact holdsStreamFrom_write h bytes
  | reset => exact holdsStream_atReset
  | reserved0 | checksum | append | csize | bsize | reserved7 => exact h

/-- Settles O52: a command and a step on its word leave the same block, blockAfter's. -/
theorem everyCommandKeepsTheStream : Obligations.EveryCommandKeepsTheStream := by
  intro B s h
  constructor
  · exact fun i => ⟨s.performed i, exec_eq i s, holdsStream_blockAfter h i⟩
  · intro n w rest hport hcommands
    obtain ⟨t, hstep, hblock, -⟩ := step_of_command hport hcommands
    refine ⟨t, hstep, ?_⟩
    rw [hblock]
    exact holdsStream_blockAfter h (decode w)

theorem streamAfter_cons (B : List Byte) (i : Instr) (is : List Instr) :
    streamAfter B (i :: is) = streamAfter (streamAfter B [i]) is := by
  cases i <;> rfl

theorem holdsStream_blockAfterAll {B : List Byte} {b : Block} (h : b.holdsStream B)
    (is : List Instr) : (blockAfterAll is b).holdsStream (streamAfter B is) := by
  induction is generalizing B b with
  | nil => exact h
  | cons i is ih =>
    rw [streamAfter_cons]
    exact ih (holdsStream_blockAfter h i)

theorem pendingLen_eq_zero_iff {B : List Byte} {b : Block} (h : b.holdsStream B) :
    b.pendingLen = 0 ↔ B.length % 4 = 0 := by
  obtain ⟨-, -, hlen⟩ := h
  rw [← hlen]
  exact BitVec.toNat_eq

/-- R35: the checksum is that of the stream the block holds. -/
theorem finalize_of_holdsStream {B : List Byte} {b : Block} (h : b.holdsStream B) :
    b.finalize = streamChecksum B := by
  have hzero := pendingLen_eq_zero_iff h
  obtain ⟨hsums, hvalid, -⟩ := h
  simp only [finalize_eq, streamChecksum, hsums, hvalid, hzero]

/-- Settles O37: the block after the list holds the stream after it. -/
theorem theStreamDeterminesTheState : Obligations.TheStreamDeterminesTheState := by
  intro is
  obtain ⟨t, ht, hblock⟩ := perform_block is State.reset
  have hholds : t.block.holdsStream (streamAfter [] is) := by
    rw [hblock]
    exact holdsStream_blockAfterAll holdsStream_atReset is
  have hfinalize := finalize_of_holdsStream hholds
  obtain ⟨hsums, hvalid, hlen⟩ := hholds
  exact ⟨t, ht, hsums, hvalid, hlen, hfinalize⟩

/-- Settles O27: RESET's block is the reset block, whatever the state was. -/
theorem resetMakesTheBlockFresh : Obligations.ResetMakesTheBlockFresh := by
  intro is s
  obtain ⟨t, ht, htblock⟩ := perform_block (.reset :: is) s
  obtain ⟨u, hu, hublock⟩ := perform_block is State.reset
  have hsame : t.block = u.block := htblock.trans hublock.symm
  exact ⟨t, u, ht, hu, hsame, by rw [hsame]⟩

/-! ## WRITES (R77) and the padding law (R125) -/

theorem beats_flatten (bytes : List Byte) : (beats bytes).flatten = bytes := by
  induction bytes using beats.induct with
  | case1 b0 b1 b2 b3 rest ih => simp [beats, ih]
  | case2 | case3 | case4 | case5 => rfl

theorem beat_length {bytes x : List Byte} (hx : x ∈ beats bytes) : 1 ≤ x.length ∧ x.length ≤ 4 := by
  induction bytes using beats.induct with
  | case1 b0 b1 b2 b3 rest ih =>
    rcases List.mem_cons.mp hx with rfl | hrest
    · simp
    · exact ih hrest
  | case2 => simp [beats] at hx
  | case3 | case4 | case5 =>
    rw [List.mem_singleton.mp hx]
    simp

/-- The beats are whole ones and then the tail, if there is one. -/
theorem beats_eq_full_append_tail (bytes : List Byte) : ∃ full : List (List Byte),
    (∀ x ∈ full, x.length = 4) ∧ full.length = bytes.length / 4 ∧
      beats bytes = full ++ (if bytes.length % 4 = 0 then [] else [streamTail bytes]) := by
  induction bytes using beats.induct with
  | case1 b0 b1 b2 b3 rest ih =>
    obtain ⟨full, hfour, hcount, hbeats⟩ := ih
    have htail : streamTail (b0 :: b1 :: b2 :: b3 :: rest) = streamTail rest :=
      streamTail_append_of_whole (xs := [b0, b1, b2, b3]) (by simp) rest
    have hlen : (b0 :: b1 :: b2 :: b3 :: rest).length = rest.length + 4 := rfl
    refine ⟨[b0, b1, b2, b3] :: full, by simpa using hfour, ?_, ?_⟩
    · rw [hlen, List.length_cons, hcount, Nat.add_div_right _ (by decide)]
    · rw [beats, hbeats, htail, hlen, Nat.add_mod_right, List.cons_append]
  | case2 | case3 | case4 | case5 => exact ⟨[], by simp, by simp, by simp [beats, streamTail]⟩

/-- Settles O17: no byte is lost, every beat fits a word, and only the last can be short. -/
theorem writesExpandsIntoBeats : Obligations.WritesExpandsIntoBeats := by
  refine fun bytes => ⟨beats_flatten bytes, fun i hi => ?_, beats_eq_full_append_tail bytes⟩
  obtain ⟨x, hx, rfl⟩ := List.mem_map.mp hi
  exact (wellFormed_write_iff x).mpr (beat_length hx)

/-- WRITES of B from reset makes the block hold B. -/
theorem perform_writesCommands_reset (B : List Byte) : ∃ t : State,
    perform (writesCommands B) State.reset = .next t ∧ t.block.holdsStream B := by
  obtain ⟨t, ht, hblock⟩ := perform_block (writesCommands B) State.reset
  have hholds := holdsStreamFrom_writes ((holdsStream_iff _ _).mp holdsStream_atReset) (beats B)
  rw [beats_flatten, List.nil_append] at hholds
  refine ⟨t, ht, ?_⟩
  rw [hblock, holdsStream_iff]
  exact hholds

theorem wordsOf_of_length_eq_four {T : List Byte} (h : T.length = 4) :
    wordsOf T = [BitVec.ofNat 32 (ofBytesLE T)] := by
  match T, h with
  | [b0, b1, b2, b3], _ =>
    rw [← le32_toNat_eq_ofBytesLE, BitVec.ofNat_toNat, BitVec.setWidth_eq]
    rfl

/-- The zero bytes up to the next word boundary complete the word that finalize pads (R120, R125). -/
theorem streamSums_padded {B : List Byte} (hB : B.length % 4 ≠ 0) :
    streamSums (B ++ List.replicate (4 - B.length % 4) 0) = streamChecksum B := by
  have hlen : (streamTail B ++ List.replicate (4 - B.length % 4) 0).length = 4 := by
    rw [List.length_append, streamTail_length, List.length_replicate]
    omega
  rw [streamSums, wordsOf_append_eq, wordsOf_of_length_eq_four hlen, ofBytesLE_append_zeros,
    foldWords_append, streamChecksum, if_neg hB]
  rfl

/-- Settles O25: both blocks hold streams, whose checksums agree. -/
theorem paddingLaw : Obligations.PaddingLaw := by
  intro B hB
  obtain ⟨t, ht, htholds⟩ := perform_writesCommands_reset B
  obtain ⟨u, hu, huholds⟩ := perform_writesCommands_reset (B ++ List.replicate (4 - B.length % 4) 0)
  have haligned : u.block.pendingLen = 0 := by
    rw [pendingLen_eq_zero_iff huholds, List.length_append, List.length_replicate]
    omega
  have hsums : u.block.sums = t.block.finalize := by
    obtain ⟨husums, -, -⟩ := huholds
    rw [husums, streamSums_padded hB, finalize_of_holdsStream htholds]
  have hfinalize : u.block.finalize = t.block.finalize := by
    rw [finalize_eq, if_pos haligned, hsums]
  refine ⟨t, u, responseTo .checksum t.block, ht, hu, rfl, ?_,
    (logicalState_eq_aligned_iff _).mpr haligned, hsums⟩
  rw [responseTo, ← hfinalize]
  rfl

end Sys2Proof.Machine

/-! PROOFS. The step, the record of a run and the run of a whole list (spec/70_reset_and_hazards.md R184, R190,
R191, spec/60_exceptions.md R163). -/

namespace Sys2Proof.Machine

/-! ## The three cases of a step -/

theorem step_of_no_command {s : State} {n : Nat} (hport : s.port = .idle n)
    (hcommands : s.commands = []) : step s = .next s := by
  simp only [step, State.stepCommand, hport, State.nextCommand, hcommands, List.head?_nil]

theorem step_of_outstanding {s : State} {n : Nat} {r : Response} (hport : s.port = .outstanding n r) :
    step s = .next s.takeResponse := by
  simp only [step, State.stepCommand, hport]

/-- The state after a step on the word w, the head of the host's list (R33, R130, R191). -/
def State.stepped (w : CmdWord) (s : State) : State :=
  { s.performed (decode w) with
    port := .idle 0
    commands := s.commands.tail
    index := s.index + 1
    responses := s.responses ++ [responseTo (decode w) s.block]
    buffer := s.buffer ++ appendedBytes (some w) (responseTo (decode w) s.block)
    draws := s.draws + 2 }

theorem accept_eq (w : CmdWord) (s : State) :
    s.accept w = .next (s.performed (decode w)).delayResponse := by
  rw [State.accept, exec_eq]

/-- The exact next state, where step_of_command gives it field by field. -/
theorem step_eq_stepped {s : State} {n : Nat} {w : CmdWord} {rest : List CmdWord}
    (hport : s.port = .idle n) (hcommands : s.commands = w :: rest) :
    step s = .next (s.stepped w) := by
  have hstep : step s = .next (s.performed (decode w)).delayResponse.takeResponse := by
    simp only [step, State.stepCommand, hport, State.nextCommand, hcommands, List.head?_cons, accept_eq]
  rw [hstep, delayResponse_of_outstanding rfl, takeResponse_of_outstanding rfl]
  simp only [State.stepped, State.performed, hcommands, List.head?_cons]

/-- Settles O39: stepped, with the bytes of an APPEND written out. -/
theorem stepRunsTheDecodedCommand : Obligations.StepRunsTheDecodedCommand := by
  intro s w rest n hport hcommands
  refine ⟨s.performed (decode w), responseTo (decode w) s.block, exec_eq _ s, rfl, ?_⟩
  rw [step_eq_stepped hport hcommands, State.stepped, hcommands]
  simp only [appendedBytes, Option.map_some, Option.some.injEq, statusOk, List.tail_cons]

/-- Settles O40: the two cases of a step without a command to perform. -/
theorem stepHoldsOrTakesTheResponse : Obligations.StepHoldsOrTakesTheResponse := by
  refine ⟨fun s n => step_of_no_command, fun s n r hport => ⟨s.takeResponse, step_of_outstanding hport, ?_⟩⟩
  rw [takeResponse_of_outstanding hport]
  exact ⟨rfl, rfl, rfl, rfl⟩

/-- Settles O41: each case of a step answers a next state. -/
theorem everyStepAnswersNext : Obligations.EveryStepAnswersNext := by
  intro s
  rcases step_cases s with ⟨_, _, _, hstep⟩ | ⟨_, _, _, hstep⟩ | ⟨_, _, _, _, _, _, _, hstep⟩ <;>
    exact ⟨_, hstep⟩

/-! ## The record of a run -/

theorem responseTo_legal (i : Instr) (b : Block) : (responseTo i b).legal := by
  cases i with
  | reserved0 | reserved7 => exact .inr ⟨rfl, rfl⟩
  | write | checksum | append | reset | csize | bsize => exact .inl rfl

/-- A command's entry in the fault record is the one its response calls for (R163). -/
theorem illegalAt_eq_illegalIn (n : Nat) (i : Instr) (b : Block) :
    illegalAt n [i] = illegalIn n [responseTo i b] := by
  cases i <;> rfl

/-- An APPEND's response is 32 bytes for the host, any other none (R130). -/
theorem appendedBytes_length_mod (w : Option CmdWord) (r : Response) :
    (appendedBytes w r).length % 32 = 0 := by
  rw [appendedBytes]
  split
  · rw [unpackBytes_eq_lowBytes, lowBytes_length]
  · rfl

theorem stepped_runRecordOk {s : State} (h : s.runRecordOk) (w : CmdWord) :
    (s.stepped w).runRecordOk := by
  obtain ⟨-, hcount, hlegal, hfaults, hbuffer⟩ := h
  refine ⟨rfl, ?_, ?_, ?_, ?_⟩
  · simp [State.stepped, hcount]
  · intro r hr
    rcases List.mem_append.mp hr with hold | hnew
    · exact hlegal r hold
    · rw [List.mem_singleton.mp hnew]
      exact responseTo_legal (decode w) s.block
  · calc (s.stepped w).faults
      _ = illegalIn 0 s.responses ++
            illegalIn s.responses.length [responseTo (decode w) s.block] := by
        rw [← hfaults, hcount, ← illegalAt_eq_illegalIn]
        rfl
      _ = illegalIn 0 (s.stepped w).responses := by
        rw [State.stepped, illegalIn_append, Nat.zero_add]
        rfl
  · have hnew := appendedBytes_length_mod (some w) (responseTo (decode w) s.block)
    rw [State.stepped, List.length_append]
    omega

/-- Settles O42: at a boundary a step holds the state or runs one command. -/
theorem stepKeepsTheRunRecord : Obligations.StepKeepsTheRunRecord := by
  intro s t h hstep
  cases hport : s.port with
  | outstanding n r =>
    obtain ⟨hboundary, -⟩ := h
    simp [State.atBoundary, hport] at hboundary
  | idle n =>
    cases hcommands : s.commands with
    | nil =>
      rw [step_of_no_command hport hcommands] at hstep
      cases hstep
      exact h
    | cons w rest =>
      rw [step_eq_stepped hport hcommands] at hstep
      cases hstep
      exact stepped_runRecordOk h w

/-- Settles O43: nothing is recorded at the start. -/
theorem runRecordIsRightAtTheStart : Obligations.RunRecordIsRightAtTheStart :=
  fun _ => ⟨rfl, rfl, nofun, rfl, rfl⟩

/-! ## A run on the words of a list -/

theorem responsesOf_cons (i : Instr) (is : List Instr) (s : State) :
    responsesOf (i :: is) s = responseTo i s.block :: responsesOf is (s.performed i) := by
  rw [responsesOf, exec_eq]
  rfl

/-- The host's bytes for the word of command i are those of appendsOf (R130). -/
theorem appendedBytes_encode {i : Instr} (hi : i.wellFormed = true) (b : Block) :
    appendedBytes (some (encode i)) (responseTo i b) =
      if i = .append then serialize b.finalize else [] := by
  have hdecode := decode_encode hi
  by_cases happend : i = .append
  · subst happend
    exact appendedBytes_responseTo_append hdecode b
  · simp [appendedBytes, hdecode, happend]

theorem appendsOf_cons (i : Instr) (is : List Instr) (s : State) :
    appendsOf (i :: is) s =
      (if i = .append then serialize s.block.finalize else []) ++ appendsOf is (s.performed i) := by
  rw [appendsOf, exec_eq]

theorem illegalAt_cons (n : Nat) (i : Instr) (is : List Instr) :
    illegalAt n (i :: is) = illegalAt n [i] ++ illegalAt (n + 1) is := by
  simp only [illegalAt]
  split <;> rfl

theorem perform_cons (i : Instr) (is : List Instr) (s : State) :
    perform (i :: is) s = perform is (s.performed i) := by
  rw [perform, exec_eq]

theorem run_succ_of_step {s t : State} (k : Nat) (h : core.step s = .next t) :
    Host.Core.run core (k + 1) s = Host.Core.run core k t := by
  simp only [Host.Core.run, h]

/-- A run of steps from any state s with the words of the list, beside the meanings from any state x with the
same block: the run's record is extended by theirs. -/
theorem run_eq_perform (is : List Instr) (hwf : ∀ i ∈ is, i.wellFormed = true) (s x : State) (n : Nat)
    (hport : s.port = .idle n) (hcommands : s.commands = is.map encode) (hblock : s.block = x.block) :
    ∃ t u : State, Host.Core.run core is.length s = .next t ∧ perform is x = .next u ∧
      t.block = u.block ∧ t.commands = [] ∧ t.index = s.index + is.length ∧
      t.responses = s.responses ++ responsesOf is x ∧ t.buffer = s.buffer ++ appendsOf is x ∧
      t.faults = s.faults ++ illegalAt s.index is := by
  induction is generalizing s x n with
  | nil =>
    exact ⟨s, x, rfl, rfl, hblock, hcommands, rfl, (List.append_nil _).symm, (List.append_nil _).symm,
      (List.append_nil _).symm⟩
  | cons i is ih =>
    obtain ⟨hi, his⟩ := List.forall_mem_cons.mp hwf
    have hstep : core.step s = .next (s.stepped (encode i)) := step_eq_stepped hport hcommands
    have hnext : (s.stepped (encode i)).block = (x.performed i).block := by
      simp only [State.stepped, State.performed, decode_encode hi, hblock]
    have hrest : (s.stepped (encode i)).commands = is.map encode := by
      simp only [State.stepped, hcommands, List.map_cons, List.tail_cons]
    obtain ⟨t, u, ht, hu, htblock, htcommands, hindex, hresponses, hbuffer, hfaults⟩ :=
      ih his (s.stepped (encode i)) (x.performed i) 0 rfl hrest hnext
    refine ⟨t, u, ?_, ?_, htblock, htcommands, ?_, ?_, ?_, ?_⟩
    · exact (run_succ_of_step is.length hstep).trans ht
    · rw [perform_cons, hu]
    · rw [hindex, List.length_cons]
      simp only [State.stepped]
      omega
    · simp only [hresponses, State.stepped, decode_encode hi, hblock, responsesOf_cons, List.append_assoc,
        List.singleton_append]
    · simp only [hbuffer, State.stepped, decode_encode hi, hblock, appendedBytes_encode hi,
        appendsOf_cons, List.append_assoc]
    · rw [hfaults, illegalAt_cons s.index]
      simp only [State.stepped, State.performed, decode_encode hi, List.append_assoc]

/-- Settles O44: the run and the meanings start at the reset block with an empty record. -/
theorem runPerformsTheWholeList : Obligations.RunPerformsTheWholeList := by
  intro is hwf
  obtain ⟨t, u, ht, hu, hblock, hcommands, hindex, hrecord⟩ :=
    run_eq_perform is hwf (State.boot (is.map encode)) State.reset 0 rfl rfl rfl
  rw [boot_index, Nat.zero_add] at hindex
  exact ⟨t, u, ht, hu, hblock, hcommands, hindex, hrecord⟩

/-! ## Several blocks side by side (R37, R170) -/

/-- Settles O50: the step of number k writes position k of the list, and no other. -/
theorem instancesShareNothing : Obligations.InstancesShareNothing := by
  intro k system
  cases hk : system[k]? with
  | none =>
    refine ⟨system, ?_, rfl, nofun, fun _ => rfl, fun _ _ => rfl⟩
    simp only [stepInstance, hk]
  | some s =>
    obtain ⟨t, ht⟩ := everyStepAnswersNext s
    have hlt : k < system.length := (List.getElem?_eq_some_iff.mp hk).1
    refine ⟨system.set k t, ?_, List.length_set, ?_, nofun, fun j hj => ?_⟩
    · simp only [stepInstance, hk, ht]
    · rintro _ ⟨⟩
      exact ⟨t, ht, List.getElem?_set_self hlt⟩
    · exact List.getElem?_set_ne hj.symm

end Sys2Proof.Machine

/-! PROOFS. The edges of the clock: what an edge does to the block, and how a command goes through the ports
(spec/30_encoding.md R61 to R63, spec/70_reset_and_hazards.md R180, R182, R192). -/

namespace Sys2Proof.Machine

theorem cmdReady_iff (s : State) : s.cmdReady false = true ↔ s.port = .idle 0 := by
  cases hport : s.port <;> simp [State.cmdReady, hport]

/-- At an edge with rst = 0 the word offered is accepted: valid and ready (R61). -/
def State.accepts (inp : PortIn) (s : State) : Prop :=
  inp.cmdValid = true ∧ s.cmdReady false = true

theorem edge_of_accepts {inp : PortIn} {s : State} (hrst : inp.rst = false) (h : s.accepts inp) :
    s.edge inp = s.accept inp.cmdWord := by
  obtain ⟨hvalid, hready⟩ := h
  rw [edge_of_ready inp s hrst ((cmdReady_iff s).mp hready), if_pos hvalid]

/-- While no word is accepted and rst = 0 the ports only wait or hand over a response. -/
theorem edge_of_not_accepts {inp : PortIn} {s : State} (hrst : inp.rst = false) (h : ¬ s.accepts inp) :
    ∃ t : State, s.edge inp = .next t ∧ t.block = s.block := by
  match hport : s.port with
  | .idle (n + 1) => exact ⟨_, edge_of_waiting_ready inp s n hrst hport, rfl⟩
  | .idle 0 =>
    have hvalid : ¬ inp.cmdValid = true := fun hv => h ⟨hv, (cmdReady_iff s).mpr hport⟩
    exact ⟨s, by rw [edge_of_ready inp s hrst hport, if_neg hvalid], rfl⟩
  | .outstanding (n + 1) r => exact ⟨_, edge_of_waiting_response inp s n r hrst hport, rfl⟩
  | .outstanding 0 r =>
    rw [edge_of_offered inp s r hrst hport]
    split
    · exact ⟨_, rfl, rfl⟩
    · exact ⟨_, rfl, rfl⟩

/-- Everything an edge can do to the block: rst clears it, an accepted word performs its command, and any other
edge leaves it (R26, R27). -/
theorem edge_block_cases (inp : PortIn) (s : State) : ∃ t : State, s.edge inp = .next t ∧
    ((inp.rst = true ∧ t.block = Block.atReset) ∨
      (inp.rst = false ∧ s.accepts inp ∧ t.block = blockAfter (decode inp.cmdWord) s.block) ∨
      (inp.rst = false ∧ ¬ s.accepts inp ∧ t.block = s.block)) := by
  cases hrst : inp.rst with
  | true => exact ⟨s.rstEdge, edge_of_rst inp s hrst, .inl ⟨rfl, rfl⟩⟩
  | false =>
    by_cases haccepts : s.accepts inp
    · obtain ⟨t, -, haccept, hblock, -⟩ := accept_block_port inp.cmdWord s
      exact ⟨t, (edge_of_accepts hrst haccepts).trans haccept, .inr (.inl ⟨rfl, haccepts, hblock⟩)⟩
    · obtain ⟨t, hedge, hblock⟩ := edge_of_not_accepts hrst haccepts
      exact ⟨t, hedge, .inr (.inr ⟨rfl, haccepts, hblock⟩)⟩

/-- Settles O33: neither exec nor an edge has another way to the block. -/
theorem onlyWriteAndResetChangeTheBlock : Obligations.OnlyWriteAndResetChangeTheBlock := by
  constructor
  · exact fun i s hwrite hreset =>
      ⟨s.performed i, exec_eq i s, blockAfter_of_not_write_reset s.block hwrite hreset⟩
  · intro inp s hrst hother
    obtain ⟨t, hedge, ⟨hrst', -⟩ | ⟨-, ⟨hvalid, hready⟩, hblock⟩ | ⟨-, -, hblock⟩⟩ :=
      edge_block_cases inp s
    · rw [hrst] at hrst'
      cases hrst'
    · obtain ⟨hwrite, hreset⟩ := hother hvalid hready
      exact ⟨t, hedge, hblock.trans (blockAfter_of_not_write_reset s.block hwrite hreset)⟩
    · exact ⟨t, hedge, hblock⟩

/-- R26 for a command: only WRITE folds, and only RESET clears. -/
theorem blockAfter_sums_cases (i : Instr) (b : Block) :
    (blockAfter i b).sums = b.sums ∨
      (i = .reset ∧ (blockAfter i b).sums = { s0 := 0, s1 := 0, s2 := 0, s3 := 0 }) ∨
      ∃ bytes, i = .write bytes ∧
        (blockAfter i b).sums = foldWords b.sums (wordsOf (b.validPending ++ bytes)) := by
  cases i with
  | write bytes => exact .inr (.inr ⟨bytes, rfl, rfl⟩)
  | reset => exact .inr (.inl ⟨rfl, rfl⟩)
  | reserved0 | checksum | append | csize | bsize | reserved7 => exact .inl rfl

/-- Settles O34: the three things an edge can do to the block, read at its sums. -/
theorem sumsChangeOnlyByFoldOrReset : Obligations.SumsChangeOnlyByFoldOrReset := by
  intro inp s
  obtain ⟨t, hedge, ⟨hrst, hblock⟩ | ⟨hrst, ⟨hvalid, hready⟩, hblock⟩ | ⟨-, -, hblock⟩⟩ :=
    edge_block_cases inp s <;> refine ⟨t, hedge, ?_⟩ <;> rw [hblock]
  · exact .inr (.inl ⟨hrst, rfl⟩)
  · rcases blockAfter_sums_cases (decode inp.cmdWord) s.block with hsame | hcleared | hfolded
    · exact .inl hsame
    · exact .inr (.inr ⟨hrst, hvalid, hready, .inl hcleared⟩)
    · exact .inr (.inr ⟨hrst, hvalid, hready, .inr hfolded⟩)
  · exact .inl rfl

/-- Settles O45: rst and RESET both write Block.atReset. -/
theorem everyResetEventClearsTheBlock : Obligations.EveryResetEventClearsTheBlock := by
  intro inp s hrst
  exact ⟨s.rstEdge, s.performed .reset, _, edge_of_rst inp s hrst, awaitReady_port _, exec_eq .reset s,
    rfl, rfl, rfl, rfl, rfl, rfl, rfl⟩

/-! ## From acceptance to transfer -/

theorem cmdReady_of_outstanding {s : State} {n : Nat} {r : Response} (h : s.port = .outstanding n r)
    (rst : Bool) : s.cmdReady rst = false := by
  simp [State.cmdReady, h]

theorem rspOffered_of_outstanding {s : State} {n : Nat} {r : Response} (h : s.port = .outstanding n r) :
    s.rspOffered false = if n = 0 then some r else none := by
  simp [State.rspOffered, h]

/-- Settles O47: the wait goes on, or a host that is not ready lets the response stand, or it is taken. -/
theorem oneCommandOutstandingAndItsResponseStable :
    Obligations.OneCommandOutstandingAndItsResponseStable := by
  intro inp s n r hport hrst
  have hready := cmdReady_of_outstanding hport false
  have hoffered := rspOffered_of_outstanding hport
  cases n with
  | succ n =>
    exact ⟨_, edge_of_waiting_response inp s n r hrst hport, hready, rfl,
      .inr ⟨.inl hoffered, n, rfl⟩⟩
  | zero =>
    have hedge := edge_of_offered inp s r hrst hport
    cases htake : inp.rspReady with
    | true =>
      rw [htake] at hedge
      exact ⟨_, hedge, hready, rfl, .inl ⟨hoffered, rfl, _, rfl⟩⟩
    | false =>
      rw [htake] at hedge
      exact ⟨_, hedge, hready, rfl, .inr ⟨.inr rfl, 0, hport⟩⟩

/-- The state from the acceptance of word w on, its response offered after k more edges (R63, log entry 23). -/
def State.accepted (w : CmdWord) (k : Nat) (s : State) : State :=
  { s.performed (decode w) with
    port := .outstanding k (responseTo (decode w) s.block)
    draws := s.draws + 1 }

theorem accept_eq_accepted (w : CmdWord) (s : State) :
    s.accept w = .next (s.accepted w (Config.responseWait s.draws)) := by
  rw [accept_eq, delayResponse_of_outstanding rfl]
  rfl

theorem edges_until_offered (w : CmdWord) (k : Nat) (s : State) :
    State.edges (List.replicate k quietEdge) (s.accepted w k) = .next (s.accepted w 0) :=
  edges_until_response k (s.accepted w k) _ rfl

theorem rspOffered_accepted_zero (w : CmdWord) (s : State) :
    (s.accepted w 0).rspOffered false = some (responseTo (decode w) s.block) :=
  rspOffered_of_outstanding (n := 0) rfl

/-- Settles O48: the accepting edge draws a finite wait, and as many quiet edges end it. -/
theorem acceptedCommandsAreAnswered : Obligations.AcceptedCommandsAreAnswered := by
  constructor
  · intro inp s hrst hvalid hready
    have haccept := accept_eq_accepted inp.cmdWord s
    have hedge := (edge_of_accepts hrst ⟨hvalid, hready⟩).trans haccept
    exact ⟨s.performed (decode inp.cmdWord), _, s.accepted inp.cmdWord 0, _, Config.responseWait s.draws,
      _, exec_eq _ s, rfl, haccept, hedge, rfl, rfl, edges_until_offered _ _ s,
      rspOffered_accepted_zero _ s, rfl⟩
  · intro s n hport
    exact ⟨n, _, edges_until_ready n s hport, (cmdReady_iff _).mpr rfl, rfl⟩

theorem edges_append {es fs : List PortIn} {s t : State} (h : State.edges es s = .next t) :
    State.edges (es ++ fs) s = State.edges fs t := by
  induction es generalizing s with
  | nil =>
    cases h
    rfl
  | cons e es ih =>
    rw [State.edges] at h
    rw [List.cons_append, State.edges]
    cases hedge : s.edge e with
    | next x =>
      rw [hedge] at h
      exact ih h
    | fault f => simp [hedge] at h
    | refused r => simp [hedge] at h

theorem edges_cons {e : PortIn} {es : List PortIn} {s t : State} (h : s.edge e = .next t) :
    State.edges (e :: es) s = State.edges es t := by
  simp only [State.edges, h]

/-- A word offered all along waits for cmd_ready, n edges, and is accepted at the next one (R61). -/
theorem edges_offer (n : Nat) (w : CmdWord) {s t : State} (hport : s.port = .idle n)
    (haccept : s.accept w = .next t) :
    State.edges (List.replicate (n + 1) (offerEdge w)) s = .next t := by
  induction n generalizing s with
  | zero =>
    have hedge : s.edge (offerEdge w) = .next t :=
      (edge_of_accepts rfl ⟨rfl, (cmdReady_iff s).mpr hport⟩).trans haccept
    exact edges_cons hedge
  | succ n ih =>
    have hwait := edge_of_waiting_ready (offerEdge w) s n rfl hport
    have hsame : ({ s with port := .idle n } : State).accept w = .next t := by
      rw [State.accept, exec_ignores_port]
      exact haccept
    exact (edges_cons hwait).trans (ih rfl hsame)

/-- Settles O49: acceptance performs the command and draws once, the transfer draws again, as a step does, and the
quiet edges between them only wait. -/
theorem portEdgesRefineTheStep : Obligations.PortEdgesRefineTheStep := by
  intro s w rest n hport hcommands
  have hoffer := edges_offer n w hport (accept_eq_accepted w s)
  have hanswer := (edges_append hoffer).trans (edges_until_offered w (Config.responseWait s.draws) s)
  have htake : (s.accepted w 0).edge takeEdge = .next (s.accepted w 0).awaitReady :=
    edge_of_offered takeEdge _ _ rfl rfl
  have hready := (edges_cons htake).trans (edges_until_ready _ _ (awaitReady_port _))
  refine ⟨_, _, _, _, _, hanswer, rspOffered_accepted_zero w s, hready, rfl, ?_⟩
  rw [step_eq_stepped hport hcommands, State.stepped, hcommands]
  rfl

end Sys2Proof.Machine
